-- ==== Sys2Proof/Word.lean ====
section
/-! DEFINITION. The widths of the block's values (spec 00_scope.md section 4, "Widths"): `byte`, `nibble`, `u16`,
and the text a memory cell holds. An `addr`, an address as computed and before any range check, is a natural number and
may be 255 or 256: it is a plain `Nat` everywhere. Only names stand here; everything computed from them stands under
`Sys2Proof/Machine/` or in `Sys2Proof/Decode.lean`. -/

namespace Sys2Proof

/-- A byte, "an integer 0 to 255": registers, the counter, the two bytes of an instruction (00_scope.md section 4). -/
abbrev Byte := BitVec 8

/-- A nibble, 0 to 15: a register index or a rotate count (00_scope.md section 4, 10_state.md R11). -/
abbrev Nibble := BitVec 4

/-- A `u16`, 0 to 65535: the timer (00_scope.md section 4, 10_state.md R20). -/
abbrev HalfWord := BitVec 16

/-- The text of a memory cell: any string of characters (10_state.md R27; DESIGN CHOICE, log entry 6). -/
abbrev Text := List Char

end Sys2Proof
end

