-- ==== Sys2Proof/Syntax.lean ====
section
/-! DEFINITION. The instruction set: one constructor for each of the 19 rows of `spec/opcode_table.json`
(30_encoding.md R56, R59, R61, R62). The register fields are nibbles, `xy` is the whole operand byte, `rest` the low
twelve bits of an instruction whose fields the block ignores. -/

namespace Sys2Proof

/-- An instruction, as the opcode byte and the operand byte name it (30_encoding.md R55, R59). -/
inductive Instr where
  /-- `1rXY`, LOAD, indirect load (41_data_transfer.md R80). -/
  | load (reg : Nibble) (xy : Byte)
  /-- `2rXY`, LOADI, load immediate (R82). -/
  | loadi (reg : Nibble) (xy : Byte)
  /-- `3rXY`, STORE (R83). -/
  | store (reg : Nibble) (xy : Byte)
  /-- `40sd`, MOVE, source nibble first (R85). -/
  | move (hi lo : Nibble)
  /-- `4rsd` with `r ≠ 0`, the illegal form of MOVE (R85, 30_encoding.md R61). -/
  | moveIllegal (reg hi lo : Nibble)
  /-- `5rst`, ADD, checked unsigned addition (42_alu.md R87). -/
  | add (reg hi lo : Nibble)
  /-- `6...`, reserved (44_reserved_unrecognized.md R104). -/
  | reserved6 (rest : BitVec 12)
  /-- `7rst`, OR (42_alu.md R91). -/
  | or (reg hi lo : Nibble)
  /-- `8rst`, AND (42_alu.md R92). -/
  | and (reg hi lo : Nibble)
  /-- `9rst`, XOR (42_alu.md R93). -/
  | xor (reg hi lo : Nibble)
  /-- `Ar0n`, ROR, rotate right (42_alu.md R95). -/
  | ror (reg lo : Nibble)
  /-- `Arhn` with `h ≠ 0`, the illegal form of ROR (R95, 30_encoding.md R61). -/
  | rorIllegal (reg hi lo : Nibble)
  /-- `BrXY`, BEQ, branch if equal to register 0 (43_control.md R98). -/
  | beq (reg : Nibble) (xy : Byte)
  /-- `C000`, HALT (43_control.md R101). -/
  | halt
  /-- `Crxy` with a nonzero field, the malformed HALT (R101, 30_encoding.md R62). -/
  | haltMalformed (reg : Nibble) (xy : Byte)
  /-- `0...`, unrecognized (44_reserved_unrecognized.md R106). -/
  | unrecognized0 (rest : BitVec 12)
  /-- `D...`, unrecognized (R106). -/
  | unrecognizedD (rest : BitVec 12)
  /-- `E...`, unrecognized (R106). -/
  | unrecognizedE (rest : BitVec 12)
  /-- `F...`, unrecognized (R106). -/
  | unrecognizedF (rest : BitVec 12)
deriving DecidableEq, Repr

end Sys2Proof
end

