-- ==== Sys2Proof/WellFormed.lean ====
section
/-! DEFINITION. Which terms of `Instr` stand for a pair of bytes: the three forms that a row of the opcode table gives
only to nonzero fields (30_encoding.md R61, R62; the notes of the rows in `spec/opcode_table.json`) must have one. Every
other term is well formed: each of its fields may hold every value of its width (30_encoding.md R60). -/

namespace Sys2Proof

/-- The instruction is one that some pair of bytes decodes to (log entry 23). -/
def Instr.wellFormed : Instr → Bool
  | .load _ _ => true
  | .loadi _ _ => true
  | .store _ _ => true
  | .move _ _ => true
  | .moveIllegal reg _ _ => reg != 0
  | .add _ _ _ => true
  | .reserved6 _ => true
  | .or _ _ _ => true
  | .and _ _ _ => true
  | .xor _ _ _ => true
  | .ror _ _ => true
  | .rorIllegal _ hi _ => hi != 0
  | .beq _ _ => true
  | .halt => true
  | .haltMalformed reg xy => reg != 0 || xy != 0
  | .unrecognized0 _ => true
  | .unrecognizedD _ => true
  | .unrecognizedE _ => true
  | .unrecognizedF _ => true

end Sys2Proof
end

