-- ==== Sys2Proof/Decode.lean ====
section
/-! DEFINITION. Decoding the two bytes of an instruction and encoding an instruction as two bytes (30_encoding.md R55,
R56, R59 to R63), and the table's numbering of the bits. Decoding is total and every pair of bytes has exactly one meaning
(R60), so it refuses nothing: the illegal, reserved, malformed and unrecognized pairs decode to constructors of their own
names. The Byte Decoder, which turns a cell's text into a byte, stands in `Machine/CellText.lean`. -/

namespace Sys2Proof

/-- `op = B1[7:4]` (30_encoding.md R55). -/
def opField (b1 : Byte) : Nibble := b1.extractLsb' 4 4

/-- `reg = B1[3:0]` (30_encoding.md R55). -/
def regField (b1 : Byte) : Nibble := b1.extractLsb' 0 4

/-- `hi = B2[7:4]` (30_encoding.md R55). -/
def hiField (b2 : Byte) : Nibble := b2.extractLsb' 4 4

/-- `lo = B2[3:0]` (30_encoding.md R55). -/
def loField (b2 : Byte) : Nibble := b2.extractLsb' 0 4

/-- The low twelve bits `W[11:0]`, which the reserved and unrecognized opcodes ignore (30_encoding.md R56, format any). -/
def restField (b1 b2 : Byte) : BitVec 12 := regField b1 ++ b2

/-- The instruction of an opcode byte and an operand byte: one arm per value of the four bits of `op`, as the opcode map
prints them, and no default (30_encoding.md R59, 40_step_cycle.md R71). -/
def decode (b1 b2 : Byte) : Instr :=
  match b1[7], b1[6], b1[5], b1[4] with
  | false, false, false, false => .unrecognized0 (restField b1 b2)
  | false, false, false, true => .load (regField b1) b2
  | false, false, true, false => .loadi (regField b1) b2
  | false, false, true, true => .store (regField b1) b2
  | false, true, false, false =>
    if regField b1 = 0 then .move (hiField b2) (loField b2)
    else .moveIllegal (regField b1) (hiField b2) (loField b2)
  | false, true, false, true => .add (regField b1) (hiField b2) (loField b2)
  | false, true, true, false => .reserved6 (restField b1 b2)
  | false, true, true, true => .or (regField b1) (hiField b2) (loField b2)
  | true, false, false, false => .and (regField b1) (hiField b2) (loField b2)
  | true, false, false, true => .xor (regField b1) (hiField b2) (loField b2)
  | true, false, true, false =>
    if hiField b2 = 0 then .ror (regField b1) (loField b2)
    else .rorIllegal (regField b1) (hiField b2) (loField b2)
  | true, false, true, true => .beq (regField b1) b2
  | true, true, false, false =>
    if regField b1 = 0 ∧ b2 = 0 then .halt else .haltMalformed (regField b1) b2
  | true, true, false, true => .unrecognizedD (restField b1 b2)
  | true, true, true, false => .unrecognizedE (restField b1 b2)
  | true, true, true, true => .unrecognizedF (restField b1 b2)

/-- The opcode byte and the operand byte of formats RXY and Z: `o r XY` (30_encoding.md R56). -/
def encodeRXY (op reg : Nibble) (xy : Byte) : Byte × Byte := (op ++ reg, xy)

/-- The two bytes of formats RST, 0RS and R0X: `o r s t` (30_encoding.md R56). -/
def encodeRST (op reg hi lo : Nibble) : Byte × Byte := (op ++ reg, hi ++ lo)

/-- The two bytes of format any: `o . . .` (30_encoding.md R56). -/
def encodeAny (op : Nibble) (rest : BitVec 12) : Byte × Byte :=
  (op ++ rest.extractLsb' 8 4, rest.extractLsb' 0 8)

/-- The opcode byte and the operand byte of an instruction (30_encoding.md R56, R59). -/
def encode : Instr → Byte × Byte
  | .load reg xy => encodeRXY 0x1 reg xy
  | .loadi reg xy => encodeRXY 0x2 reg xy
  | .store reg xy => encodeRXY 0x3 reg xy
  | .move hi lo => encodeRST 0x4 0x0 hi lo
  | .moveIllegal reg hi lo => encodeRST 0x4 reg hi lo
  | .add reg hi lo => encodeRST 0x5 reg hi lo
  | .reserved6 rest => encodeAny 0x6 rest
  | .or reg hi lo => encodeRST 0x7 reg hi lo
  | .and reg hi lo => encodeRST 0x8 reg hi lo
  | .xor reg hi lo => encodeRST 0x9 reg hi lo
  | .ror reg lo => encodeRST 0xA reg 0x0 lo
  | .rorIllegal reg hi lo => encodeRST 0xA reg hi lo
  | .beq reg xy => encodeRXY 0xB reg xy
  | .halt => encodeRXY 0xC 0x0 0x00
  | .haltMalformed reg xy => encodeRXY 0xC reg xy
  | .unrecognized0 rest => encodeAny 0x0 rest
  | .unrecognizedD rest => encodeAny 0xD rest
  | .unrecognizedE rest => encodeAny 0xE rest
  | .unrecognizedF rest => encodeAny 0xF rest

/-- `W = B1:B2`, the 16-bit name of an instruction, its opcode byte the more significant (20_memory.md R45, 30_encoding.md
R55). -/
def encodeWord (i : Instr) : BitVec 16 := (encode i).1 ++ (encode i).2

/-- The 16 bits of an instruction that the opcode table numbers 15 to 0, of which only the low `nbits` may be set
(DEDUCED, log entry 3). -/
def tableWord (nbits w : Nat) : BitVec 16 := BitVec.ofNat 16 (w % 2 ^ nbits)

/-- The opcode byte of a table word: bits 15 to 8, at the lower address (20_memory.md R45). -/
def tableOpcodeByte (nbits w : Nat) : Byte := (tableWord nbits w).extractLsb' 8 8

/-- The operand byte of a table word: bits 7 to 0, at the higher address (20_memory.md R45). -/
def tableOperandByte (nbits w : Nat) : Byte := (tableWord nbits w).extractLsb' 0 8

/-- The instruction the decoder reads from a word of the opcode table. No instruction is longer than two cells
(30_encoding.md R54), so a word of more than 16 bits is none. -/
def decodeTableWord (nbits w : Nat) : Option Instr :=
  if nbits ≤ 16 then some (decode (tableOpcodeByte nbits w) (tableOperandByte nbits w)) else none

end Sys2Proof
end

