-- ==== Sys2Proof/Machine/CellText.lean ====
section
/-! DEFINITION. The Byte Decoder and the canonical text of a byte: pure functions between the text of a cell and a byte
(20_memory.md R33 to R38). -/

namespace Sys2Proof.Machine

/-- `IsWs`: the Unicode White_Space characters (92_eei_decisions.md D2, 93_implementation_defined.md I11;
PRESUMED there, log entry 5). -/
def isWs (c : Char) : Bool :=
  let n := c.toNat
  (0x09 ≤ n && n ≤ 0x0D) || n == 0x20 || n == 0x85 || n == 0xA0 || n == 0x1680 || (0x2000 ≤ n && n ≤ 0x200A)
    || n == 0x2028 || n == 0x2029 || n == 0x202F || n == 0x205F || n == 0x3000

/-- The text without its leading and its trailing white space (20_memory.md R34, first line). -/
def trimWs (t : Text) : Text := ((t.dropWhile isWs).reverse.dropWhile isWs).reverse

/-- The text without one leading `0x` or `0X`: "at most one" is removed (20_memory.md R34). -/
def stripHexMark : Text → Text
  | '0' :: 'x' :: s => s
  | '0' :: 'X' :: s => s
  | s => s

/-- The value of a base-16 digit `0`-`9`, `a`-`f`, `A`-`F`; no other character is one (20_memory.md R34). -/
def hexDigit (c : Char) : Option Nat :=
  let n := c.toNat
  if 48 ≤ n ∧ n ≤ 57 then some (n - 48)
  else if 97 ≤ n ∧ n ≤ 102 then some (n - 87)
  else if 65 ≤ n ∧ n ≤ 70 then some (n - 55)
  else none

/-- The natural number that a text of base-16 digits continues `acc` with, or none where a character is no digit. -/
def hexNumberFrom (acc : Nat) : Text → Option Nat
  | [] => some acc
  | c :: s =>
    match hexDigit c with
    | none => none
    | some d => hexNumberFrom (acc * 16 + d) s

/-- `decode_cell`: the byte that a cell's text denotes, or none (20_memory.md R34; leading zeros allowed, R35, log
entry 12). -/
def decodeCell (t : Text) : Option Byte :=
  let s := stripHexMark (trimWs t)
  if s = [] then none
  else
    match hexNumberFrom 0 s with
    | none => none
    | some n => if n > 255 then none else some (BitVec.ofNat 8 n)

/-- `H(d)`: the character `0`-`9` or `A`-`F` of a nibble (20_memory.md R37). -/
def hexChar (d : Nibble) : Char :=
  if d.toNat < 10 then Char.ofNat (48 + d.toNat) else Char.ofNat (55 + d.toNat)

/-- `hex2(v)`: `0x` and the two uppercase digits of a byte (20_memory.md R37). -/
def hex2 (v : Byte) : Text :=
  ['0', 'x', hexChar (v.extractLsb' 4 4), hexChar (v.extractLsb' 0 4)]

end Sys2Proof.Machine
end

