-- ==== Sys2Proof/Config.lean ====
section
/-! DEFINITION. What the spec leaves to the implementation: the kinds of log entries and the one value they leave open,
the wording `MSG` of the messages the document does not quote (00_scope.md R8, 60_exceptions.md R110 to R112).
The numeric parameters of 00_scope.md R8 stand in `Sys2Proof/Machine/Params.lean`. -/

namespace Sys2Proof

/-- The severity of a log entry (10_state.md R23). The block never appends a `warning`
(60_exceptions.md R110, 93_implementation_defined.md I12). -/
inductive Severity where
  | info
  | warning
  | error
deriving DecidableEq, Repr

/-- The kinds of log entries, in the order of their codes 1 to 9 (60_exceptions.md R110). -/
inductive EntryKind where
  | decodeError
  | storeOutOfRange
  | moveForm
  | addOverflow
  | reserved6
  | rotateForm
  | haltForm
  | unrecognized
  | runStart
deriving DecidableEq, Repr

/-- `MSG(kind, addr)` for the messages whose wording the document does not give: a FREE VALUE, with no body, so that
nothing can be proved of it (60_exceptions.md R112, 92_eei_decisions.md D7 and D10, log entry 2). -/
opaque Config.freeMessage : EntryKind → Nat → Text

end Sys2Proof
end

