-- ==== Sys2Proof/Machine/Params.lean ====
section
/-! DEFINITION. The numeric parameters of 00_scope.md R8, each one definition, never a bare numeral elsewhere
(00_scope.md R9, 93_implementation_defined.md I13). They stand under `Machine/` because the spec calls the literals
unaudited (UNVERIFIED, log entry 24): a corrected value must change one definition. -/

namespace Sys2Proof.Machine

/-- `MEM_CELLS`: the number of memory cells, addresses 0 to 254 (00_scope.md R8, 10_state.md R26). -/
def memCells : Nat := 255

/-- `INSTR_CELLS`: memory cells per instruction (00_scope.md R8, 30_encoding.md R54). -/
def instrCells : Nat := 2

/-- `TIMER_RESET`: the timer at creation and after every reset (00_scope.md R8, 70_reset_and_hazards.md R134). -/
def timerReset : Nat := 500

/-- `TIMER_HOST_MIN`: the smallest timer value the host may write (00_scope.md R8). -/
def timerHostMin : Nat := 0

/-- `TIMER_HOST_MAX`: the largest timer value the host may write (00_scope.md R8, 10_state.md R20). -/
def timerHostMax : Nat := 1500

/-- `PC_HOST_MAX`: the largest counter value the host may write (00_scope.md R8). -/
def pcHostMax : Nat := 255

end Sys2Proof.Machine
end

