-- ==== Sys2Proof/Machine/State.lean ====
section
/-! DEFINITION. The block's state, exactly the tuple that opens 10_state.md, its value at creation
(70_reset_and_hazards.md R134), and the reasons for which the model stops. -/

namespace Sys2Proof.Machine

/-- The execution state, "two-state machine: `Running` and `Stopped` (initial)" (10_state.md R22). -/
inductive ExecState where
  | running
  | stopped
deriving DecidableEq, Repr

/-- One entry of the log (10_state.md R23, 60_exceptions.md R110, R111). -/
structure LogEntry where
  sev : Severity
  kind : EntryKind
  addr : Nat
  text : Text
deriving DecidableEq, Repr

/-- The memory cells that are not blank, as pairs of an address and the text of the cell there, addresses strictly rising
(`Memory.wf`). A cell holds a text and not a byte (10_state.md R26, R27, log entry 1). -/
abbrev Memory := List (Nat × Text)

/-- The text of a blank cell, which is what an unlisted address reads as: the empty string (10_state.md R28; DESIGN CHOICE of the
spec, D1, log entry 16). -/
def blank : Text := []

/-- The architectural state between steps (10_state.md, opening tuple; R10 to R29). -/
structure State where
  /-- `x[0]` to `x[15]` (R10). -/
  regs : Vector Byte 16
  /-- The program counter (R14). -/
  pc : Byte
  /-- The countdown timer (R20). -/
  timer : HalfWord
  /-- The execution state `exec` (R22). -/
  execState : ExecState
  /-- The log, oldest entry first (R23). -/
  log : List LogEntry
  /-- The log's update flag (R24). -/
  dirty : Bool
  /-- The memory cells (R26). -/
  mem : Memory
deriving DecidableEq, Repr

/-- Why a step could stop without a next state: never. The block has no trap, every error of its program is a log entry
and at most a change of the execution state, both of them a next state, and "a step always terminates" (60_exceptions.md
R109, 40_step_cycle.md R67). Nothing raises a fault, so this type has no constructor; that is safe only because the spec
gives every pair of bytes an effect (30_encoding.md R60, log entry 22). -/
inductive Fault where
deriving DecidableEq, Repr

/-- Why the model refuses. No step is refused: the reasons after the first are those of the host's commands. -/
inductive Refusal where
  /-- Raised by an arm of `exec` whose instruction has no meaning yet; no arm of this model is one. Safe: the run ends. -/
  | notModelled (mnemonic : String)
  /-- Raised by `set_timer` for a value outside [0, 1500] (70_reset_and_hazards.md R148, D16). Safe: nothing changes. -/
  | timerOutOfRange
  /-- Raised by `set_counter` for a value outside [0, 255] (70_reset_and_hazards.md R148, D16). Safe: nothing changes. -/
  | counterOutOfRange
  /-- Raised by `edit_cell` for an address above 254 (70_reset_and_hazards.md R148, D16). Safe: nothing changes. -/
  | cellOutOfRange
  /-- Raised by `tick` while Stopped, when it is not admitted (70_reset_and_hazards.md R144). Safe: nothing changes. -/
  | tickWhileStopped
deriving DecidableEq, Repr

/-- Creation: all-zero registers, blank memory, counter 0, timer 500, Stopped, empty log, dirty flag false
(70_reset_and_hazards.md R134; the flag is a DESIGN CHOICE of the spec, D11, log entry 15). -/
def State.reset : State where
  regs := Vector.replicate 16 0
  pc := 0
  timer := BitVec.ofNat 16 timerReset
  execState := .stopped
  log := []
  dirty := false
  mem := []

end Sys2Proof.Machine
end

