-- ==== Sys2Proof/Machine/Logger.lean ====
section
/-! DEFINITION. The Logger: what an entry says, and appending one (60_exceptions.md R110 to R113). -/

namespace Sys2Proof.Machine

/-- The numeric code of a kind, which no program observes (60_exceptions.md R110, 92_eei_decisions.md D9). -/
def kindCode : EntryKind → Nat
  | .decodeError => 1
  | .storeOutOfRange => 2
  | .moveForm => 3
  | .addOverflow => 4
  | .reserved6 => 5
  | .rotateForm => 6
  | .haltForm => 7
  | .unrecognized => 8
  | .runStart => 9

/-- The severity that the entries of a kind have (60_exceptions.md R110). -/
def kindSeverity : EntryKind → Severity
  | .decodeError => .error
  | .storeOutOfRange => .error
  | .moveForm => .error
  | .addOverflow => .error
  | .reserved6 => .error
  | .rotateForm => .error
  | .haltForm => .error
  | .unrecognized => .error
  | .runStart => .info

/-- `MSG(kind, addr)`: the three texts the document quotes, and a free value for the others (60_exceptions.md R110,
R112). -/
def messageOf (kind : EntryKind) (a : Nat) : Text :=
  match kind with
  | .decodeError => Config.freeMessage .decodeError a
  | .storeOutOfRange => Config.freeMessage .storeOutOfRange a
  | .moveForm => "opcode 0x4 must be followed by 0".toList
  | .addOverflow => Config.freeMessage .addOverflow a
  | .reserved6 => "Developing opcode 0x6".toList
  | .rotateForm => Config.freeMessage .rotateForm a
  | .haltForm => Config.freeMessage .haltForm a
  | .unrecognized => "opcode not recognized".toList
  | .runStart => Config.freeMessage .runStart a

/-- The entry that `log(sev, kind, a)` appends (60_exceptions.md R111). -/
def logEntry (sev : Severity) (kind : EntryKind) (a : Nat) : LogEntry :=
  { sev := sev, kind := kind, addr := a, text := messageOf kind a }

/-- `log(sev, kind, a)`: append one entry and set the dirty flag (60_exceptions.md R111). -/
def appendLog (sev : Severity) (kind : EntryKind) (a : Nat) (s : State) : State :=
  { s with log := s.log ++ [logEntry sev kind a], dirty := true }

/-- The name of a severity (60_exceptions.md R112). -/
def severityName : Severity → Text
  | .info => "Info".toList
  | .warning => "Warning".toList
  | .error => "Error".toList

/-- The displayed text of an entry: the severity's name, a colon, a space and the message (60_exceptions.md R112). -/
def displayEntry (e : LogEntry) : Text := severityName e.sev ++ ": ".toList ++ e.text

end Sys2Proof.Machine
end

