-- ==== Sys2Proof/Machine/Memory.lean ====
section
/-! DEFINITION. The operations over the memory's data: the text of a cell, its replacement, and the canonical form that
makes equal memories equal data (10_state.md R26 to R29). The reads and writes of the engine, with their log entries,
stand in `Machine/Ops.lean`. -/

namespace Sys2Proof.Machine

/-- The text that the cell at an address holds; an unlisted cell is blank (10_state.md R28). -/
def Memory.read : Memory → Nat → Text
  | [], _ => blank
  | (b, t) :: m, a => if b = a then t else Memory.read m a

/-- The memory with the cell at an address holding a text: the whole text is replaced (20_memory.md R43), and a cell that
becomes blank is no longer listed. -/
def Memory.write : Memory → Nat → Text → Memory
  | [], a, t => if t = blank then [] else [(a, t)]
  | (b, u) :: m, a, t =>
    if a < b then
      if t = blank then (b, u) :: m else (a, t) :: (b, u) :: m
    else if a = b then
      if t = blank then m else (a, t) :: m
    else (b, u) :: Memory.write m a t

/-- The canonical form: addresses strictly rising, each of a cell that exists (10_state.md R26), no listed cell blank. -/
abbrev Memory.wf (m : Memory) : Prop :=
  m.Pairwise (fun c d => c.1 < d.1) ∧ ∀ c ∈ m, c.1 < memCells ∧ c.2 ≠ blank

/-- The text of a cell of the state (`mem[a]`, 10_state.md R26). -/
def cellText (s : State) (a : Nat) : Text := s.mem.read a

end Sys2Proof.Machine
end

