-- ==== Sys2Proof/Machine/Ops.lean ====
section
/-! DEFINITION. The named operations that every instruction is written over: registers, counter, timer, memory reads and
writes, the fatal-error path, and the commit of an instruction's outcome. -/

namespace Sys2Proof.Machine

/-- `x[i]` (10_state.md R10). -/
def readReg (s : State) (i : Nibble) : Byte := s.regs[i.toNat]'(i.isLt)

/-- `x[i] <- v` (10_state.md R10). No register is hard-wired: each holds what was last written to it. -/
def writeReg (s : State) (i : Nibble) (v : Byte) : State := { s with regs := s.regs.set i.toNat v i.isLt }

/-- `pc <- t` (10_state.md R14). -/
def setPc (s : State) (t : Byte) : State := { s with pc := t }

/-- `PC_ADVANCE`, `(pc + 2) mod 256` (40_step_cycle.md R73, 92_eei_decisions.md D6; DESIGN CHOICE of the
spec, log entry 7). -/
def pcAdvance (p : Byte) : Byte := BitVec.ofNat 8 ((p.toNat + instrCells) % 256)

/-- `timer_tick()`, `timer <- max(timer - 1, 0)` (60_exceptions.md R123). -/
def timerTick (s : State) : State := { s with timer := BitVec.ofNat 16 (s.timer.toNat - 1) }

/-- `exec <- Stopped` (10_state.md R22). -/
def stopMachine (s : State) : State := { s with execState := .stopped }

/-- The byte that a read of an address finds, or none where the read fails: an address that names no cell, or a text that
does not decode (20_memory.md R40; for data reads a DESIGN CHOICE of the spec, D3, log entry 9). -/
def cellByte (s : State) (a : Nat) : Option Byte :=
  if a ≥ memCells then none else decodeCell (cellText s a)

/-- `MemRead(a, 1)`: fail-soft, a failed read gives 0 and appends one Error entry that names the address (20_memory.md
R39, R40). -/
def memRead (a : Nat) (s : State) : Byte × State :=
  match cellByte s a with
  | some v => (v, s)
  | none => (0, appendLog .error .decodeError a s)

/-- The text of one cell replaced (20_memory.md R43, R44). -/
def setCell (s : State) (a : Nat) (t : Text) : State := { s with mem := s.mem.write a t }

/-- `MemWrite(a, 1, v)`: the canonical text of the byte, or one Error entry where the address names no cell
(20_memory.md R43; dropping it with an entry is a DESIGN CHOICE of the spec, D4, log entry 10). -/
def memWrite (a : Nat) (v : Byte) (s : State) : State :=
  if a ≥ memCells then appendLog .error .storeOutOfRange a s else setCell s a (hex2 v)

/-- What an instruction's rule returns to the commit (40_step_cycle.md R72). -/
inductive RuleOutcome where
  /-- The default completion. -/
  | next
  /-- A branch taken to a target. -/
  | taken (t : Byte)
  /-- The rule has set the execution state to Stopped. -/
  | stop
deriving DecidableEq, Repr

/-- The outcome of an instruction's rule and the state it leaves to the commit. -/
structure Ruled where
  outcome : RuleOutcome
  state : State
deriving DecidableEq, Repr

/-- `raise Fatal(kind)`, the single path of every fatal error and the block's form of an exception: one Error entry that
names the counter at entry to the step, then Stopped (60_exceptions.md R114). Nothing else is saved and control goes
nowhere (R116). There is no return from it: the machine leaves Stopped by the host's run command only (R119,
`Machine/HostInterface.lean`). -/
def raiseFatal (kind : EntryKind) (s : State) : Ruled :=
  ⟨.stop, stopMachine (appendLog .error kind s.pc.toNat s)⟩

/-- The commit: `Next` advances the counter and ticks the timer, `Taken` loads the target and ticks, `Stop` does nothing
more (40_step_cycle.md R73 to R76). `pc0` is the counter at entry to the step (log entry 17). -/
def commit (pc0 : Byte) (r : Ruled) : State :=
  match r.outcome with
  | .next => timerTick (setPc r.state (pcAdvance pc0))
  | .taken t => timerTick (setPc r.state t)
  | .stop => r.state

/-- An instruction's rule run on a state and committed. It always answers a next state (60_exceptions.md R109). -/
def runRule (rule : State → Ruled) (s : State) : Host.Outcome State Fault Refusal :=
  .next (commit s.pc (rule s))

end Sys2Proof.Machine
end

