-- ==== Sys2Proof/Machine/Operands.lean ====
section
/-! DEFINITION. The operand forms (30_encoding.md R57): a nibble names a register (`readReg`), the operand byte is an
immediate value, a direct address, an indirect address or a branch target, and a nibble is a rotate count. An immediate and
a target are the operand byte itself, unextended and unscaled. -/

namespace Sys2Proof.Machine

/-- A direct address: the operand byte as an unsigned number (30_encoding.md R57). -/
def directAddr (xy : Byte) : Nat := xy.toNat

/-- The indirect operand of LOAD: the byte of the cell that the byte of cell `xy` addresses, both read fail-soft, the
intermediate first (41_data_transfer.md R80, R81; that the target is decoded too is a DESIGN CHOICE of the spec, D19,
log entry 11). -/
def indirectOperand (xy : Byte) (s : State) : Byte × State :=
  let p := memRead (directAddr xy) s
  memRead (directAddr p.1) p.2

/-- The rotate count, `lo mod 8` (30_encoding.md R57, 42_alu.md R95). -/
def rotateCount (lo : Nibble) : Nat := lo.toNat % 8

/-- Register 0, the comparison operand of BEQ (10_state.md R12). -/
def comparisonReg : Nibble := 0

end Sys2Proof.Machine
end

