-- ==== Sys2Proof/Machine/Flags.lean ====
section
/-! DEFINITION. The block has no condition codes, status flags or predicates (10_state.md R19), so no flag is computed.
What stands in their place are the conditions that the instruction rules test and store nowhere. -/

namespace Sys2Proof.Machine

/-- The exact sum of two bytes, 0 to 510 (42_alu.md R87). -/
def exactSum (a b : Byte) : Nat := a.toNat + b.toNat

/-- The sum does not fit in a byte (42_alu.md R87). -/
def addOverflows (a b : Byte) : Bool := exactSum a b > 255

/-- MOVE's disallowed form, `reg ≠ 0` (41_data_transfer.md R85). -/
def moveFormBad (reg : Nibble) : Bool := reg != 0

/-- ROR's disallowed form, `hi ≠ 0` (42_alu.md R95). -/
def rotateFormBad (hi : Nibble) : Bool := hi != 0

/-- HALT's malformed encoding, `XY ≠ 0` or `reg ≠ 0` (43_control.md R101). -/
def haltFormBad (reg : Nibble) (xy : Byte) : Bool := xy != 0 || reg != 0

/-- BEQ's condition, `x[reg] = x[0]` (43_control.md R98). -/
def branchHolds (s : State) (reg : Nibble) : Bool := readReg s reg == readReg s comparisonReg

end Sys2Proof.Machine
end

