-- ==== Sys2Proof/Machine/Alu.lean ====
section
/-! DEFINITION. ADD, OR, AND, XOR and ROR, opcodes 5 and 7 to 10 (42_alu.md). Each rule is the pseudocode of its
instruction; each meaning is the rule run and committed. -/

namespace Sys2Proof.Machine

/-- `rotr8(v, s)`, the 8-bit rotate right (42_alu.md R96). -/
def rotr8 (v : Byte) (s : Nat) : Byte := if s = 0 then v else (v >>> s) ||| (v <<< (8 - s))

/-- `ADD(reg, hi, lo)` (42_alu.md R87 to R89). -/
def addRule (reg hi lo : Nibble) (s : State) : Ruled :=
  if addOverflows (readReg s hi) (readReg s lo) then raiseFatal .addOverflow s
  else ⟨.next, writeReg s reg (BitVec.ofNat 8 (exactSum (readReg s hi) (readReg s lo)))⟩

/-- `OR(reg, hi, lo)` (42_alu.md R91, R94). -/
def orRule (reg hi lo : Nibble) (s : State) : Ruled := ⟨.next, writeReg s reg (readReg s lo ||| readReg s hi)⟩

/-- `AND(reg, hi, lo)` (42_alu.md R92, R94). -/
def andRule (reg hi lo : Nibble) (s : State) : Ruled := ⟨.next, writeReg s reg (readReg s lo &&& readReg s hi)⟩

/-- `XOR(reg, hi, lo)` (42_alu.md R93, R94). -/
def xorRule (reg hi lo : Nibble) (s : State) : Ruled := ⟨.next, writeReg s reg (readReg s lo ^^^ readReg s hi)⟩

/-- `ROR(reg, hi, lo)` (42_alu.md R95, R97). -/
def rorRule (reg hi lo : Nibble) (s : State) : Ruled :=
  if rotateFormBad hi then raiseFatal .rotateForm s
  else ⟨.next, writeReg s reg (rotr8 (readReg s reg) (rotateCount lo))⟩

/-- ADD (42_alu.md R87). -/
def execAdd (reg hi lo : Nibble) (s : State) : Host.Outcome State Fault Refusal := runRule (addRule reg hi lo) s

/-- OR (42_alu.md R91). -/
def execOr (reg hi lo : Nibble) (s : State) : Host.Outcome State Fault Refusal := runRule (orRule reg hi lo) s

/-- AND (42_alu.md R92). -/
def execAnd (reg hi lo : Nibble) (s : State) : Host.Outcome State Fault Refusal := runRule (andRule reg hi lo) s

/-- XOR (42_alu.md R93). -/
def execXor (reg hi lo : Nibble) (s : State) : Host.Outcome State Fault Refusal := runRule (xorRule reg hi lo) s

/-- ROR with `hi = 0` (42_alu.md R95). -/
def execRor (reg lo : Nibble) (s : State) : Host.Outcome State Fault Refusal := runRule (rorRule reg 0 lo) s

/-- ROR with `hi ≠ 0`: the fatal error RotateForm (42_alu.md R95). -/
def execRorIllegal (reg hi lo : Nibble) (s : State) : Host.Outcome State Fault Refusal :=
  runRule (rorRule reg hi lo) s

end Sys2Proof.Machine
end

