-- ==== Sys2Proof/Machine/Control.lean ====
section
/-! DEFINITION. BEQ and HALT, opcodes 11 and 12 (43_control.md). Each rule is the pseudocode of its instruction; each
meaning is the rule run and committed. -/

namespace Sys2Proof.Machine

/-- `BEQ(reg, XY)` (43_control.md R98, R99). -/
def beqRule (reg : Nibble) (xy : Byte) (s : State) : Ruled :=
  if branchHolds s reg then ⟨.taken xy, s⟩ else ⟨.next, s⟩

/-- `HALT(reg, XY)` (43_control.md R101, R102; the entry names the counter, a DESIGN CHOICE of the spec, D20,
log entry 14). -/
def haltRule (reg : Nibble) (xy : Byte) (s : State) : Ruled :=
  ⟨.stop, stopMachine (if haltFormBad reg xy then appendLog .error .haltForm s.pc.toNat s else s)⟩

/-- BEQ (43_control.md R98). -/
def execBeq (reg : Nibble) (xy : Byte) (s : State) : Host.Outcome State Fault Refusal := runRule (beqRule reg xy) s

/-- HALT in its one clean encoding (43_control.md R101). -/
def execHalt (s : State) : Host.Outcome State Fault Refusal := runRule (haltRule 0 0) s

/-- A malformed HALT: it halts all the same, with one Error entry (43_control.md R101, 30_encoding.md R62). -/
def execHaltMalformed (reg : Nibble) (xy : Byte) (s : State) : Host.Outcome State Fault Refusal :=
  runRule (haltRule reg xy) s

end Sys2Proof.Machine
end

