-- ==== Sys2Proof/Machine/DataTransfer.lean ====
section
/-! DEFINITION. LOAD, LOADI, STORE and MOVE, opcodes 1 to 4 (41_data_transfer.md). Each rule is the pseudocode of its
instruction; each meaning is the rule run and committed. -/

namespace Sys2Proof.Machine

/-- `LOAD(reg, XY)` (41_data_transfer.md R80, R81). -/
def loadRule (reg : Nibble) (xy : Byte) (s : State) : Ruled :=
  let p := indirectOperand xy s
  ⟨.next, writeReg p.2 reg p.1⟩

/-- `LOADI(reg, XY)` (41_data_transfer.md R82). -/
def loadiRule (reg : Nibble) (xy : Byte) (s : State) : Ruled := ⟨.next, writeReg s reg xy⟩

/-- `STORE(reg, XY)` (41_data_transfer.md R83, R84). -/
def storeRule (reg : Nibble) (xy : Byte) (s : State) : Ruled :=
  ⟨.next, memWrite (directAddr xy) (readReg s reg) s⟩

/-- `MOVE(reg, hi, lo)` (41_data_transfer.md R85, R86). -/
def moveRule (reg hi lo : Nibble) (s : State) : Ruled :=
  if moveFormBad reg then raiseFatal .moveForm s else ⟨.next, writeReg s lo (readReg s hi)⟩

/-- LOAD (41_data_transfer.md R80). -/
def execLoad (reg : Nibble) (xy : Byte) (s : State) : Host.Outcome State Fault Refusal := runRule (loadRule reg xy) s

/-- LOADI (41_data_transfer.md R82). -/
def execLoadi (reg : Nibble) (xy : Byte) (s : State) : Host.Outcome State Fault Refusal := runRule (loadiRule reg xy) s

/-- STORE (41_data_transfer.md R83). -/
def execStore (reg : Nibble) (xy : Byte) (s : State) : Host.Outcome State Fault Refusal := runRule (storeRule reg xy) s

/-- MOVE with `reg = 0` (41_data_transfer.md R85). -/
def execMove (hi lo : Nibble) (s : State) : Host.Outcome State Fault Refusal := runRule (moveRule 0 hi lo) s

/-- MOVE with `reg ≠ 0`: the fatal error MoveForm (41_data_transfer.md R85). -/
def execMoveIllegal (reg hi lo : Nibble) (s : State) : Host.Outcome State Fault Refusal :=
  runRule (moveRule reg hi lo) s

end Sys2Proof.Machine
end

