-- ==== Sys2Proof/Machine/Reserved.lean ====
section
/-! DEFINITION. The opcodes that do no work, 6, 0, 13, 14 and 15: each is a fatal error whatever its other twelve bits
(44_reserved_unrecognized.md). -/

namespace Sys2Proof.Machine

/-- `RESERVED6` (44_reserved_unrecognized.md R104, R105). -/
def reserved6Rule (s : State) : Ruled := raiseFatal .reserved6 s

/-- `UNRECOGNIZED` (44_reserved_unrecognized.md R106, R107). -/
def unrecognizedRule (s : State) : Ruled := raiseFatal .unrecognized s

/-- Opcode 6 (44_reserved_unrecognized.md R104). -/
def execReserved6 (_rest : BitVec 12) (s : State) : Host.Outcome State Fault Refusal := runRule reserved6Rule s

/-- Opcode 0 (44_reserved_unrecognized.md R106). -/
def execUnrecognized0 (_rest : BitVec 12) (s : State) : Host.Outcome State Fault Refusal := runRule unrecognizedRule s

/-- Opcode 13 (44_reserved_unrecognized.md R106). -/
def execUnrecognizedD (_rest : BitVec 12) (s : State) : Host.Outcome State Fault Refusal := runRule unrecognizedRule s

/-- Opcode 14 (44_reserved_unrecognized.md R106). -/
def execUnrecognizedE (_rest : BitVec 12) (s : State) : Host.Outcome State Fault Refusal := runRule unrecognizedRule s

/-- Opcode 15 (44_reserved_unrecognized.md R106). -/
def execUnrecognizedF (_rest : BitVec 12) (s : State) : Host.Outcome State Fault Refusal := runRule unrecognizedRule s

end Sys2Proof.Machine
end

