-- ==== Sys2Proof/Machine/Dispatch.lean ====
section
/-! DEFINITION. The dispatch: one arm per constructor of Instr (40_step_cycle.md R71). -/

namespace Sys2Proof.Machine

def exec (i : Instr) (s : State) : Host.Outcome State Fault Refusal :=
  match i with
  | .load reg xy => Sys2Proof.Machine.execLoad reg xy s
  | .loadi reg xy => Sys2Proof.Machine.execLoadi reg xy s
  | .store reg xy => Sys2Proof.Machine.execStore reg xy s
  | .move hi lo => Sys2Proof.Machine.execMove hi lo s
  | .moveIllegal reg hi lo => Sys2Proof.Machine.execMoveIllegal reg hi lo s
  | .add reg hi lo => Sys2Proof.Machine.execAdd reg hi lo s
  | .reserved6 rest => Sys2Proof.Machine.execReserved6 rest s
  | .or reg hi lo => Sys2Proof.Machine.execOr reg hi lo s
  | .and reg hi lo => Sys2Proof.Machine.execAnd reg hi lo s
  | .xor reg hi lo => Sys2Proof.Machine.execXor reg hi lo s
  | .ror reg lo => Sys2Proof.Machine.execRor reg lo s
  | .rorIllegal reg hi lo => Sys2Proof.Machine.execRorIllegal reg hi lo s
  | .beq reg xy => Sys2Proof.Machine.execBeq reg xy s
  | .halt => Sys2Proof.Machine.execHalt s
  | .haltMalformed reg xy => Sys2Proof.Machine.execHaltMalformed reg xy s
  | .unrecognized0 rest => Sys2Proof.Machine.execUnrecognized0 rest s
  | .unrecognizedD rest => Sys2Proof.Machine.execUnrecognizedD rest s
  | .unrecognizedE rest => Sys2Proof.Machine.execUnrecognizedE rest s
  | .unrecognizedF rest => Sys2Proof.Machine.execUnrecognizedF rest s

end Sys2Proof.Machine
end

