-- ==== Sys2Proof/Machine/Fetch.lean ====
section
/-! DEFINITION. The fetch of an instruction's two bytes, and the placing of two bytes where the next fetch reads them
(40_step_cycle.md R69, 30_encoding.md R58). -/

namespace Sys2Proof.Machine

/-- What the fetch leaves: the opcode byte, the operand byte, and the state with the entries of the reads that failed. -/
structure Fetched where
  opcodeByte : Byte
  operandByte : Byte
  state : State
deriving DecidableEq, Repr

/-- The fetch: the opcode cell, then the operand cell, whose address `pc0 + 1` is a natural number and is not wrapped
(40_step_cycle.md R69, 92_eei_decisions.md D5; DESIGN CHOICE of the spec, log entry 8). Both are read in every step. -/
def fetch (s : State) : Fetched :=
  let p := memRead s.pc.toNat s
  let q := memRead (s.pc.toNat + 1) p.2
  ⟨p.1, q.1, q.2⟩

/-- The counter at which two cells can be placed: the state's own, or 0 where the state's counter, 254 or 255, has no
operand cell (20_memory.md R48, log entry 4). -/
def placingCounter (s : State) : Byte := if s.pc.toNat + 1 < memCells then s.pc else 0

/-- The state with two bytes, as canonical texts, in the cells that the next step fetches (30_encoding.md R64). -/
def placeAtCounter (s : State) (b1 b2 : Byte) : State :=
  let p := placingCounter s
  setCell (setCell (setPc s p) p.toNat (hex2 b1)) (p.toNat + 1) (hex2 b2)

end Sys2Proof.Machine
end

