-- ==== Sys2Proof/Machine/Step.lean ====
section
/-! DEFINITION. The step: fetch, decode, dispatch, commit (40_step_cycle.md R79). -/

namespace Sys2Proof.Machine

/-- One step. It does not read the execution state (40_step_cycle.md R68). -/
def step (s : State) : Host.Outcome State Fault Refusal :=
  exec (decode (fetch s).opcodeByte (fetch s).operandByte) (fetch s).state

/-- The state with a word of the opcode table stored as the two cells that the next step fetches. -/
def State.withFetchWord (s : State) (nbits w : Nat) : State :=
  placeAtCounter s (tableOpcodeByte nbits w) (tableOperandByte nbits w)

end Sys2Proof.Machine
end

