-- ==== Sys2Proof/Machine/HostInterface.lean ====
section
/-! DEFINITION. The host's interface: the two resets, the run command, the ten host commands, and what the host reads
(70_reset_and_hazards.md R134 to R149). -/

namespace Sys2Proof.Machine

/-- Soft reset: registers, timer, log and dirty flag; memory, counter and execution state are kept
(70_reset_and_hazards.md R135). -/
def softReset (s : State) : State :=
  { s with regs := Vector.replicate 16 0, timer := BitVec.ofNat 16 timerReset, log := [], dirty := false }

/-- Full reset: soft reset, blank memory, counter 0, Stopped (70_reset_and_hazards.md R136). -/
def fullReset (s : State) : State :=
  { softReset s with mem := [], pc := 0, execState := .stopped }

/-- Run: soft reset, Running, one Info entry that names the counter (70_reset_and_hazards.md R137). -/
def runCommand (s : State) : State :=
  appendLog .info .runStart s.pc.toNat { softReset s with execState := .running }

/-- The host's commands (70_reset_and_hazards.md R144). A value the host asks for is a natural number, admitted or not. -/
inductive HostCommand where
  | editCell (a : Nat) (t : Text)
  | setTimer (v : Nat)
  | setCounter (v : Nat)
  | run
  | debugStep
  | tick
  | softReset
  | fullReset
  | forceStop
  | clearDirty
deriving DecidableEq, Repr

/-- One host command, taken between steps, on the state it finds; one that is not admitted is refused
(70_reset_and_hazards.md R144, R148, 92_eei_decisions.md D16, D26, D27; log entries 18 and 20). -/
def hostCommand (c : HostCommand) (s : State) : Host.Outcome State Fault Refusal :=
  match c with
  | .editCell a t => if a < memCells then .next (setCell s a t) else .refused .cellOutOfRange
  | .setTimer v =>
    if timerHostMin ≤ v ∧ v ≤ timerHostMax then .next { s with timer := BitVec.ofNat 16 v }
    else .refused .timerOutOfRange
  | .setCounter v => if v ≤ pcHostMax then .next (setPc s (BitVec.ofNat 8 v)) else .refused .counterOutOfRange
  | .run => .next (runCommand s)
  | .debugStep => step s
  | .tick =>
    match s.execState with
    | .running => step s
    | .stopped => .refused .tickWhileStopped
  | .softReset => .next (softReset s)
  | .fullReset => .next (fullReset s)
  | .forceStop => .next (stopMachine s)
  | .clearDirty => .next { s with dirty := false }

/-- The state after a host command: the one it leaves, or the same where the command is not admitted
(92_eei_decisions.md D16). -/
def afterCommand (c : HostCommand) (s : State) : State :=
  match hostCommand c s with
  | .next t => t
  | .fault _ => s
  | .refused _ => s

/-- The state after a schedule of host commands: `HOST_SCHEDULE`, any finite sequence of them (92_eei_decisions.md D15,
70_reset_and_hazards.md R147, log entry 19). -/
def afterSchedule : List HostCommand → State → State
  | [], s => s
  | c :: cs, s => afterSchedule cs (afterCommand c s)

/-- What the host reads (70_reset_and_hazards.md R145, 92_eei_decisions.md D21). -/
structure HostView where
  registers : List Byte
  counter : Nat
  timer : Nat
  execution : ExecState
  entries : List LogEntry
  displayed : List Text
  dirty : Bool
  cells : List Text
deriving DecidableEq, Repr

/-- The host's read surface: 16 registers, counter, timer, execution state, ordered log entries and their displayed
texts, dirty flag, and the text of each of the 255 cells (70_reset_and_hazards.md R145, 60_exceptions.md R112). -/
def hostView (s : State) : HostView where
  registers := s.regs.toList
  counter := s.pc.toNat
  timer := s.timer.toNat
  execution := s.execState
  entries := s.log
  displayed := s.log.map displayEntry
  dirty := s.dirty
  cells := (List.range memCells).map (cellText s)

end Sys2Proof.Machine
end

