-- ==== Sys2Proof/Safety.lean ====
section
/-! DEFINITION. The terms that claims use: what a step reads and when it stops, said from the two bytes by arithmetic and
not through the decoder; what an instruction may leave changed; the invariant; and the run of a program. -/

namespace Sys2Proof.Machine

/-- The byte that a fail-soft read gives (20_memory.md R39, R40). -/
def readByte (s : State) (a : Nat) : Byte := (cellByte s a).getD 0

/-- The entries that a fail-soft read appends: none, or the one that names the address (20_memory.md R39). -/
def readErrors (s : State) (a : Nat) : List LogEntry :=
  match cellByte s a with
  | some _ => []
  | none => [logEntry .error .decodeError a]

/-- The state with entries appended in order, the dirty flag set where there is one (60_exceptions.md R111). -/
def withEntries (s : State) (es : List LogEntry) : State :=
  { s with log := s.log ++ es, dirty := s.dirty || !es.isEmpty }

/-- The state after a fatal error: one Error entry that names the counter, the dirty flag, Stopped, and nothing else
(60_exceptions.md R114, R115). -/
def fatalState (s : State) (kind : EntryKind) : State :=
  { s with log := s.log ++ [logEntry .error kind s.pc.toNat], dirty := true, execState := .stopped }

/-- The number of the register that a nibble of a byte names (10_state.md R11). -/
def regOf (n : Nat) : Nibble := BitVec.ofNat 4 n

/-- The kind of the fatal error that the two bytes alone decide, if any (30_encoding.md R61, the table). -/
def illegalKind (b1 b2 : Byte) : Option EntryKind :=
  let op := b1.toNat / 16
  if op = 0 then some .unrecognized
  else if op = 4 ∧ b1.toNat % 16 ≠ 0 then some .moveForm
  else if op = 6 then some .reserved6
  else if op = 10 ∧ b2.toNat / 16 ≠ 0 then some .rotateForm
  else if op ≥ 13 then some .unrecognized
  else none

/-- The instruction of the two bytes stops the machine: HALT, an illegal encoding, or an ADD whose sum is above 255
(60_exceptions.md R132). -/
abbrev stopsOn (s : State) (b1 b2 : Byte) : Prop :=
  b1.toNat / 16 = 12 ∨ (illegalKind b1 b2).isSome ∨
    (b1.toNat / 16 = 5 ∧
      (readReg s (regOf (b2.toNat / 16))).toNat + (readReg s (regOf (b2.toNat % 16))).toNat > 255)

/-- The instruction of the two bytes is a BEQ whose register equals register 0 (43_control.md R98). -/
abbrev takenOn (s : State) (b1 : Byte) : Prop :=
  b1.toNat / 16 = 11 ∧ readReg s (regOf (b1.toNat % 16)) = readReg s 0

/-- The register that the instruction of the two bytes may write (10_state.md R13, the table). -/
def writtenRegister (b1 b2 : Byte) : Option Nibble :=
  let op := b1.toNat / 16
  if op = 1 ∨ op = 2 ∨ op = 5 ∨ op = 7 ∨ op = 8 ∨ op = 9 then some (regOf (b1.toNat % 16))
  else if op = 4 ∧ b1.toNat % 16 = 0 then some (regOf (b2.toNat % 16))
  else if op = 10 ∧ b2.toNat / 16 = 0 then some (regOf (b1.toNat % 16))
  else none

/-- The opcode byte that the step fetches. -/
def fetchedOpcode (s : State) : Byte := readByte s s.pc.toNat

/-- The operand byte that the step fetches, at `pc0 + 1` unwrapped (40_step_cycle.md R69). -/
def fetchedOperand (s : State) : Byte := readByte s (s.pc.toNat + 1)

/-- The state that the fetch leaves to the dispatch: the entries of its failed reads are appended, the opcode cell's first
(40_step_cycle.md R78). -/
def afterFetch (s : State) : State := withEntries s (readErrors s s.pc.toNat ++ readErrors s (s.pc.toNat + 1))

/-- The cells that the step reads: the opcode cell, the operand cell and, for opcode 1, the intermediate and the target
cell (20_memory.md R41). -/
def cellsRead (s : State) : List Nat :=
  [s.pc.toNat, s.pc.toNat + 1] ++
    (if (fetchedOpcode s).toNat / 16 = 1 then
      [(fetchedOperand s).toNat, (readByte s (fetchedOperand s).toNat).toNat]
    else [])

/-- Every register but one is as before. -/
def otherRegistersKept (r : Nibble) (s t : State) : Prop := ∀ q, q ≠ r → readReg t q = readReg s q

/-- Every register is as before. -/
def registersKept (s t : State) : Prop := ∀ q, readReg t q = readReg s q

/-- Every cell reads as before. -/
def cellsKept (s t : State) : Prop := ∀ a, cellText t a = cellText s a

/-- The execution state, the log and the dirty flag are as before. -/
def controlKept (s t : State) : Prop := t.execState = s.execState ∧ t.log = s.log ∧ t.dirty = s.dirty

/-- The timer has been decremented by one, floored at 0 (60_exceptions.md R123). -/
def ticked (s t : State) : Prop := t.timer.toNat = s.timer.toNat - 1

/-- "counter advances by exactly 2" (10_state.md R16), where the sum is a counter value; what the advance does at the top
of the range is a statement of its own. -/
def advancedByTwo (s t : State) : Prop := s.pc.toNat + 2 < 256 → t.pc.toNat = s.pc.toNat + 2

/-- An entry that the block may hold: its severity is its kind's, its text is its message, its address one that a step or
a command names (60_exceptions.md R110, R111). -/
def entryOk (e : LogEntry) : Prop :=
  e.sev = kindSeverity e.kind ∧ e.text = messageOf e.kind e.addr ∧ e.addr ≤ memCells + 1

/-- The invariant of the block: memory in canonical form, the timer within its bound (10_state.md R21), and only entries
of the table in the log, so none of severity Warning (60_exceptions.md R110). -/
def Inv (s : State) : Prop :=
  s.mem.wf ∧ s.timer.toNat ≤ max timerReset timerHostMax ∧ ∀ e ∈ s.log, entryOk e

/-- `n` ticks lead from `s` to `t`, the machine Running before and after each, so that none of them stops it
(60_exceptions.md R126). -/
def runningTicks : Nat → State → State → Prop
  | 0, s, t => t = s
  | n + 1, s, t => ∃ u, hostCommand .tick s = .next u ∧ u.execState = .running ∧ runningTicks n u t

/-- `n` ticks of a run, or fewer where the machine stops before (70_reset_and_hazards.md R150). -/
def runFor : Nat → State → State
  | 0, s => s
  | n + 1, s =>
    match s.execState with
    | .stopped => s
    | .running => runFor n (afterCommand .tick s)

/-- The run that the host starts at `s` ends in `t`: the run command, then ticks up to the first step that sets Stopped
(70_reset_and_hazards.md R150). -/
def runEndsIn (s t : State) : Prop := ∃ n, runFor n (runCommand s) = t ∧ t.execState = .stopped

end Sys2Proof.Machine
end

