-- ==== Sys2Proof/Certificates/Slice0/Obligations.lean ====
section
/-! DEFINITION. The statements for the provers. Each docstring says which sentence of the spec a statement formalises;
where a clause rests on a decision or an inference the spec marks as its own, it names that mark. -/

open Sys2Proof Sys2Proof.Machine

/-! ## Encoding -/

/-- Decoding the encoding of a well-formed instruction gives it back, every operand at every value (30_encoding.md R55,
R56, R59). -/
def Obligations.DecodeOfEncodeIsIdentity : Prop :=
  ∀ i : Instr, i.wellFormed = true → decode (encode i).1 (encode i).2 = i

/-- Every pair of bytes decodes to a well-formed instruction whose encoding is that pair, so that decoding is total and
every pair has one meaning (30_encoding.md R60, an inference the spec marks as derived). -/
def Obligations.EncodeOfDecodeIsIdentity : Prop :=
  ∀ b1 b2 : Byte, (decode b1 b2).wellFormed = true ∧ encode (decode b1 b2) = (b1, b2)

/-- The fields of an instruction are those bits of `W = B1:B2` that the field table names (30_encoding.md R55). -/
def Obligations.FieldsAreTheNamedBits : Prop :=
  ∀ b1 b2 : Byte,
    let w := b1.toNat * 256 + b2.toNat
    (opField b1).toNat = b1.toNat / 16 ∧ (regField b1).toNat = b1.toNat % 16 ∧
    (hiField b2).toNat = b2.toNat / 16 ∧ (loField b2).toNat = b2.toNat % 16 ∧
    (opField b1).toNat = w / 4096 ∧ (regField b1).toNat = w / 256 % 16 ∧
    (hiField b2).toNat = w / 16 % 16 ∧ (loField b2).toNat = w % 16 ∧ b2.toNat = w % 256

/-- Words written out from the opcode map decode to the instructions they stand for (30_encoding.md sections 2 and 4; the
vectors of 95_test_vectors.md section 2). -/
def Obligations.PrintedWordsDecode : Prop :=
  decode 0x11 0x10 = .load 1 0x10 ∧ decode 0x21 0x05 = .loadi 1 0x05 ∧ decode 0x33 0x20 = .store 3 0x20 ∧
  decode 0x40 0x12 = .move 1 2 ∧ decode 0x4F 0x12 = .moveIllegal 0xF 1 2 ∧ decode 0x53 0x12 = .add 3 1 2 ∧
  decode 0x60 0x00 = .reserved6 0x000 ∧ decode 0x75 0x34 = .or 5 3 4 ∧ decode 0x83 0x12 = .and 3 1 2 ∧
  decode 0x94 0x12 = .xor 4 1 2 ∧ decode 0xA1 0x04 = .ror 1 4 ∧ decode 0xA1 0x10 = .rorIllegal 1 1 0 ∧
  decode 0xB1 0x0C = .beq 1 0x0C ∧ decode 0xC0 0x00 = .halt ∧ decode 0xC1 0x01 = .haltMalformed 1 0x01 ∧
  decode 0x00 0x00 = .unrecognized0 0x000 ∧ decode 0xD5 0x55 = .unrecognizedD 0x555

/-! ## The Byte Decoder and the memory primitives -/

/-- The Byte Decoder accepts exactly the texts that are white space, at most one `0x` or `0X`, one or more base-16 digits
of value at most 255, and white space, and gives that value (20_memory.md R33 to R35; C1; the set `isWs` is decision
D2). -/
def Obligations.DecodeCellMeansHexByteGrammar : Prop :=
  ∀ (t : Text) (v : Byte), decodeCell t = some v ↔
    ∃ before mark digits after : Text,
      t = before ++ mark ++ digits ++ after ∧ (∀ c ∈ before, isWs c = true) ∧ (∀ c ∈ after, isWs c = true) ∧
      (mark = [] ∨ mark = ['0', 'x'] ∨ mark = ['0', 'X']) ∧ digits ≠ [] ∧
      (∀ c ∈ digits, (hexDigit c).isSome = true) ∧
      digits.foldl (fun n c => n * 16 + (hexDigit c).getD 0) 0 = v.toNat

/-- The white space that is trimmed is the Unicode White_Space set (decision D2 of 92_eei_decisions.md, the spec's own
choice). -/
def Obligations.TrimmedWhitespaceIsUnicodeSet : Prop :=
  ∀ c : Char, isWs c = true ↔
    c.toNat ∈ [0x09, 0x0A, 0x0B, 0x0C, 0x0D, 0x20, 0x85, 0xA0, 0x1680, 0x2000, 0x2001, 0x2002, 0x2003, 0x2004, 0x2005,
      0x2006, 0x2007, 0x2008, 0x2009, 0x200A, 0x2028, 0x2029, 0x202F, 0x205F, 0x3000]

/-- The canonical text of every byte decodes to that byte (20_memory.md R38, an inference the spec marks as derived). -/
def Obligations.CanonicalTextDecodesBack : Prop :=
  ∀ v : Byte, decodeCell (hex2 v) = some v

/-- A read of a cell whose text does not decode gives 0, appends exactly one Error entry that names the address, and
changes nothing else; a read of a text that decodes gives its byte and changes nothing (20_memory.md R39). -/
def Obligations.FailedReadGivesZeroAndOneEntry : Prop :=
  ∀ (s : State) (a : Nat), a ≤ 254 →
    (decodeCell (cellText s a) = none →
      memRead a s = (0, { s with log := s.log ++ [logEntry .error .decodeError a], dirty := true })) ∧
    (∀ v, decodeCell (cellText s a) = some v → memRead a s = (v, s))

/-- A read at an address that names no cell is the same soft failure (20_memory.md R40; decisions D3 and D5, the spec's
own choices for the data reads and the unwrapped operand address). -/
def Obligations.OutOfRangeReadIsSoftFailure : Prop :=
  ∀ (s : State) (a : Nat), 255 ≤ a →
    memRead a s = (0, { s with log := s.log ++ [logEntry .error .decodeError a], dirty := true })

/-! ## Data transfer -/

/-- LOAD reads the intermediate cell, then the cell that it addresses, both fail-soft, and writes the byte; it completes
for every register and operand and changes nothing else (41_data_transfer.md section 1). The read at 255, the order of the
two entries, the intermediate cell's first, and the decoding of the target are decisions D3, D8 and D19, the spec's own
choices (log entries 9, 13 and 11). -/
def Obligations.LoadReadsThroughIntermediateCell : Prop :=
  ∀ (reg : Nibble) (xy : Byte) (s : State),
    let p := readByte s xy.toNat
    ∃ t, exec (.load reg xy) s = .next t ∧
      readReg t reg = readByte s p.toNat ∧ otherRegistersKept reg s t ∧ cellsKept s t ∧
      t.log = s.log ++ (readErrors s xy.toNat ++ readErrors s p.toNat) ∧
      t.dirty = (s.dirty || (cellByte s xy.toNat).isNone || (cellByte s p.toNat).isNone) ∧
      t.execState = s.execState ∧ advancedByTwo s t ∧ ticked s t

/-- LOADI: `W = 2rXY` writes `XY` to register `r` and completes with Next; no error and no other effect
(41_data_transfer.md R82). -/
def Obligations.LoadiLoadsOperandByte : Prop :=
  ∀ (reg : Nibble) (xy : Byte) (s : State),
    decode (0x2#4 ++ reg) xy = .loadi reg xy ∧
    ∃ t, exec (.loadi reg xy) s = .next t ∧
      readReg t reg = xy ∧ otherRegistersKept reg s t ∧ cellsKept s t ∧ controlKept s t ∧ advancedByTwo s t ∧ ticked s t

/-- STORE to a cell that exists replaces its text by `0x` and two uppercase hex digits of the register, and changes nothing
else but the counter and the timer (20_memory.md R37, for the text). The stored address is that of `directAddr`. -/
def Obligations.StoreWritesCanonicalText : Prop :=
  ∀ (reg : Nibble) (xy : Byte) (s : State), xy.toNat ≤ 254 →
    let v := readReg s reg
    let digit : Nat → Char := fun d => ("0123456789ABCDEF".toList).getD d '?'
    ∃ t, exec (.store reg xy) s = .next t ∧
      cellText t (directAddr xy) = ['0', 'x', digit (v.toNat / 16), digit (v.toNat % 16)] ∧
      (∀ a, a ≠ directAddr xy → cellText t a = cellText s a) ∧
      registersKept s t ∧ controlKept s t ∧ advancedByTwo s t ∧ ticked s t

/-- STORE to address 255 drops the write, appends one StoreOutOfRange entry that names 255, and completes
(20_memory.md section 2; decision D4, the spec's own choice). -/
def Obligations.StoreToAbsentCellIsDropped : Prop :=
  ∀ (reg : Nibble) (s : State),
    ∃ t, exec (.store reg 0xFF) s = .next t ∧
      cellsKept s t ∧ registersKept s t ∧ t.log = s.log ++ [logEntry .error .storeOutOfRange 255] ∧ t.dirty = true ∧
      t.execState = s.execState ∧ advancedByTwo s t ∧ ticked s t

/-- Round trip: after a STORE to cell `a`, a LOAD through any cell that decodes to `a` gives the register's value back and
appends no entry (41_data_transfer.md section 3, derived there; the document's testable property, 95_test_vectors.md S2). -/
def Obligations.StoreThenIndirectLoadRoundTrips : Prop :=
  ∀ (r q : Nibble) (a b : Byte) (s t : State), a.toNat ≤ 254 →
    exec (.store r a) s = .next t → cellByte t b.toNat = some a →
    ∃ u, exec (.load q b) t = .next u ∧ readReg u q = readReg s r ∧ u.log = s.log ∧ u.dirty = s.dirty

/-- MOVE: `W = 40sd` copies register `s` to register `d`; `W = 4rsd` with `r ≠ 0` is the fatal error MoveForm with its
quoted message, no register written, counter and timer unchanged (41_data_transfer.md R85). -/
def Obligations.MoveCopiesOrStopsOnForm : Prop :=
  ∀ (reg hi lo : Nibble) (s : State),
    (decode (0x4#4 ++ 0x0#4) (hi ++ lo) = .move hi lo ∧
      ∃ t, exec (.move hi lo) s = .next t ∧
        readReg t lo = readReg s hi ∧ otherRegistersKept lo s t ∧ cellsKept s t ∧ controlKept s t ∧
        advancedByTwo s t ∧ ticked s t) ∧
    (reg ≠ 0 → decode (0x4#4 ++ reg) (hi ++ lo) = .moveIllegal reg hi lo ∧
      exec (.moveIllegal reg hi lo) s = .next { s with
        log := s.log ++ [⟨.error, .moveForm, s.pc.toNat, "opcode 0x4 must be followed by 0".toList⟩]
        dirty := true
        execState := .stopped })

/-! ## Arithmetic and logic -/

/-- ADD: `W = 5rst` writes the exact sum of registers `s` and `t` where it is at most 255; otherwise it is the fatal error
AddOverflow, `x[r]` is not written, counter and timer unchanged (42_alu.md R87). -/
def Obligations.AddIsCheckedUnsignedSum : Prop :=
  ∀ (reg hi lo : Nibble) (s : State),
    decode (0x5#4 ++ reg) (hi ++ lo) = .add reg hi lo ∧
    ((readReg s hi).toNat + (readReg s lo).toNat ≤ 255 →
      ∃ t, exec (.add reg hi lo) s = .next t ∧
        (readReg t reg).toNat = (readReg s hi).toNat + (readReg s lo).toNat ∧ otherRegistersKept reg s t ∧
        cellsKept s t ∧ controlKept s t ∧ advancedByTwo s t ∧ ticked s t) ∧
    ((readReg s hi).toNat + (readReg s lo).toNat > 255 →
      exec (.add reg hi lo) s = .next (fatalState s .addOverflow))

/-- ADD, OR, AND and XOR do not depend on the order of their source registers, and XOR of a register with itself gives 0
(42_alu.md R88, R94, inferences the spec marks as derived). -/
def Obligations.SourceOrderDoesNotMatter : Prop :=
  ∀ (reg hi lo : Nibble) (s : State),
    exec (.add reg hi lo) s = exec (.add reg lo hi) s ∧ exec (.or reg hi lo) s = exec (.or reg lo hi) s ∧
    exec (.and reg hi lo) s = exec (.and reg lo hi) s ∧ exec (.xor reg hi lo) s = exec (.xor reg lo hi) s ∧
    ∃ t, exec (.xor reg hi hi) s = .next t ∧ readReg t reg = 0

/-- OR, AND and XOR: `W = 7rst`, `8rst`, `9rst` write, bit by bit, the OR, AND and exclusive OR of registers `s` and `t`,
never fail, and change nothing else (42_alu.md R91, R92, R93). -/
def Obligations.BitwiseInstructionsCombineBits : Prop :=
  ∀ (reg hi lo : Nibble) (s : State),
    (decode (0x7#4 ++ reg) (hi ++ lo) = .or reg hi lo ∧
      ∃ t, exec (.or reg hi lo) s = .next t ∧
        (∀ n, (readReg t reg).getLsbD n = ((readReg s lo).getLsbD n || (readReg s hi).getLsbD n)) ∧
        otherRegistersKept reg s t ∧ cellsKept s t ∧ controlKept s t ∧ advancedByTwo s t ∧ ticked s t) ∧
    (decode (0x8#4 ++ reg) (hi ++ lo) = .and reg hi lo ∧
      ∃ t, exec (.and reg hi lo) s = .next t ∧
        (∀ n, (readReg t reg).getLsbD n = ((readReg s lo).getLsbD n && (readReg s hi).getLsbD n)) ∧
        otherRegistersKept reg s t ∧ cellsKept s t ∧ controlKept s t ∧ advancedByTwo s t ∧ ticked s t) ∧
    (decode (0x9#4 ++ reg) (hi ++ lo) = .xor reg hi lo ∧
      ∃ t, exec (.xor reg hi lo) s = .next t ∧
        (∀ n, (readReg t reg).getLsbD n = ((readReg s lo).getLsbD n ^^ (readReg s hi).getLsbD n)) ∧
        otherRegistersKept reg s t ∧ cellsKept s t ∧ controlKept s t ∧ advancedByTwo s t ∧ ticked s t)

/-- ROR: `W = Ar0n` rotates register `r` right by `n mod 8`, bit `i` of the result being bit `(i + n) mod 8` of the value;
`W = Arhn` with `h ≠ 0` is the fatal error RotateForm, no register written, counter and timer unchanged (42_alu.md R95,
R96). -/
def Obligations.RorRotatesOrStopsOnForm : Prop :=
  ∀ (reg hi lo : Nibble) (s : State),
    (decode (0xA#4 ++ reg) (0x0#4 ++ lo) = .ror reg lo ∧
      ∃ t, exec (.ror reg lo) s = .next t ∧
        (∀ n, n < 8 → (readReg t reg).getLsbD n = (readReg s reg).getLsbD ((n + lo.toNat % 8) % 8)) ∧
        otherRegistersKept reg s t ∧ cellsKept s t ∧ controlKept s t ∧ advancedByTwo s t ∧ ticked s t) ∧
    (hi ≠ 0 → decode (0xA#4 ++ reg) (hi ++ lo) = .rorIllegal reg hi lo ∧
      exec (.rorIllegal reg hi lo) s = .next (fatalState s .rotateForm))

/-! ## Control -/

/-- A taken branch: where register `r` equals register 0, BEQ sets the counter to its operand byte and decrements the
timer, the default advance is not applied, and nothing else changes (40_step_cycle.md R74). -/
def Obligations.TakenBranchLoadsCounter : Prop :=
  ∀ (reg : Nibble) (xy : Byte) (s : State), readReg s reg = readReg s 0 →
    ∃ t, exec (.beq reg xy) s = .next t ∧ t.pc = xy ∧ ticked s t ∧ registersKept s t ∧ cellsKept s t ∧ controlKept s t

/-- A branch not taken advances the counter by 2, modulo 256 at the top of its range, decrements the timer and changes
nothing else (43_control.md section 1; the modulus is decision D6, the spec's own choice). -/
def Obligations.UntakenBranchAdvances : Prop :=
  ∀ (reg : Nibble) (xy : Byte) (s : State), readReg s reg ≠ readReg s 0 →
    ∃ t, exec (.beq reg xy) s = .next t ∧ t.pc.toNat = (s.pc.toNat + 2) % 256 ∧ ticked s t ∧ registersKept s t ∧
      cellsKept s t ∧ controlKept s t

/-- HALT stops the machine and changes nothing else; a malformed HALT also appends the HaltForm entry that names the
counter (43_control.md section 2; the entry's address is decision D20, the spec's own choice). -/
def Obligations.HaltStopsInPlace : Prop :=
  ∀ (reg : Nibble) (xy : Byte) (s : State),
    exec .halt s = .next { s with execState := .stopped } ∧
    (reg ≠ 0 ∨ xy ≠ 0 → exec (.haltMalformed reg xy) s = .next (fatalState s .haltForm))

/-- A HALT with a nonzero field is malformed but not illegal: it halts exactly like `C000` and in addition logs one Error
entry (30_encoding.md R62). -/
def Obligations.MalformedHaltHaltsWithOneEntry : Prop :=
  ∀ (reg : Nibble) (xy : Byte) (s : State), reg ≠ 0 ∨ xy ≠ 0 →
    decode (0xC#4 ++ reg) xy = .haltMalformed reg xy ∧ decode 0xC0 0x00 = .halt ∧
    ∃ t u e, exec .halt s = .next t ∧ exec (.haltMalformed reg xy) s = .next u ∧ e.sev = Severity.error ∧
      t.execState = .stopped ∧ u = { t with log := t.log ++ [e], dirty := true }

/-- `BEQ R0` is an unconditional jump, `LOADI Rr, 0` clears a register, and `MOVE R0, R0` changes only the counter and the
timer (30_encoding.md section 4, derived there; the names JMP, CLR and NOP are decision D17). -/
def Obligations.PseudoInstructionsAreExact : Prop :=
  ∀ (r : Nibble) (xy : Byte) (s : State),
    (∃ t, exec (decode 0xB0 xy) s = .next t ∧ t.pc = xy) ∧
    (∃ t, exec (decode (0x2#4 ++ r) 0x00) s = .next t ∧ readReg t r = 0) ∧
    (∃ t, exec (decode 0x40 0x00) s = .next t ∧ t = { s with pc := t.pc, timer := t.timer })

/-! ## Reserved and unrecognized opcodes, fatal errors -/

/-- Opcode 6, whatever the low twelve bits, is the fatal error Reserved6 with its quoted message: one Error entry that
names the counter, Stopped, counter, timer, registers and cells unchanged (44_reserved_unrecognized.md R104). -/
def Obligations.OpcodeSixAlwaysStops : Prop :=
  ∀ (b1 b2 : Byte) (s : State), b1.toNat / 16 = 6 →
    (∃ rest, decode b1 b2 = .reserved6 rest) ∧
    ∀ rest, exec (.reserved6 rest) s = .next { s with
      log := s.log ++ [⟨.error, .reserved6, s.pc.toNat, "Developing opcode 0x6".toList⟩]
      dirty := true
      execState := .stopped }

/-- The opcodes 0, 13, 14 and 15, whatever the low twelve bits, are the fatal error Unrecognized with its quoted message
(44_reserved_unrecognized.md R106). -/
def Obligations.UnrecognizedOpcodesAlwaysStop : Prop :=
  ∀ (b1 b2 : Byte) (s : State),
    let stopped : Host.Outcome State Fault Refusal := .next { s with
      log := s.log ++ [⟨.error, .unrecognized, s.pc.toNat, "opcode not recognized".toList⟩]
      dirty := true
      execState := .stopped }
    (b1.toNat / 16 = 0 → ∃ rest, decode b1 b2 = .unrecognized0 rest) ∧
    (b1.toNat / 16 = 13 → ∃ rest, decode b1 b2 = .unrecognizedD rest) ∧
    (b1.toNat / 16 = 14 → ∃ rest, decode b1 b2 = .unrecognizedE rest) ∧
    (b1.toNat / 16 = 15 → ∃ rest, decode b1 b2 = .unrecognizedF rest) ∧
    ∀ rest, exec (.unrecognized0 rest) s = stopped ∧ exec (.unrecognizedD rest) s = stopped ∧
      exec (.unrecognizedE rest) s = stopped ∧ exec (.unrecognizedF rest) s = stopped

/-- Every encoding of the table of illegal encodings stops the machine with the fatal error of its kind, an Error entry at
`pc0`, and executes nothing else (30_encoding.md R61). -/
def Obligations.IllegalEncodingsStopTheMachine : Prop :=
  ∀ (b1 b2 : Byte) (k : EntryKind) (s : State), illegalKind b1 b2 = some k →
    exec (decode b1 b2) s = .next (fatalState s k)

/-- `raise Fatal(kind)` is the single path of every fatal error. It appends exactly one Error entry that names the counter
at entry to the step, sets Stopped, and returns Stop, after which the commit changes nothing; and an instruction other than
HALT that stops a running machine has taken it, with one of the five kinds that are fatal (60_exceptions.md R114). -/
def Obligations.FatalPathLogsOnceAndStops : Prop :=
  (∀ (k : EntryKind) (s : State),
    (raiseFatal k s).outcome = .stop ∧ (raiseFatal k s).state.execState = .stopped ∧
    (raiseFatal k s).state.log = s.log ++ [logEntry .error k s.pc.toNat] ∧
    runRule (raiseFatal k) s = .next (fatalState s k)) ∧
  ∀ (i : Instr) (s t : State), s.execState = .running → exec i s = .next t → t.execState = .stopped →
    i ≠ .halt → (∀ reg xy, i ≠ .haltMalformed reg xy) →
    ∃ k ∈ [EntryKind.moveForm, .addOverflow, .reserved6, .rotateForm, .unrecognized], runRule (raiseFatal k) s = .next t

/-! ## The step -/

/-- Where the two cells at the counter decode to the bytes of an instruction, the step is that instruction's meaning at
that state, with nothing around it: the meanings commit the counter and the timer themselves (40_step_cycle.md sections 2
to 4). -/
def Obligations.StepRunsDecodedInstruction : Prop :=
  ∀ (s : State) (b1 b2 : Byte) (i : Instr), i.wellFormed = true →
    cellByte s s.pc.toNat = some b1 → cellByte s (s.pc.toNat + 1) = some b2 → decode b1 b2 = i →
    step s = exec i s

/-- At every state the step is the meaning of the instruction that the two fail-soft reads name, at the state to which the
failed reads have appended their entries, the opcode cell's first (40_step_cycle.md sections 2, 3 and 5; the unwrapped
operand address is decision D5 and the order of entries decision D8, the spec's own choices). -/
def Obligations.StepFetchesBothCellsFailSoft : Prop :=
  ∀ s : State,
    let b1 := readByte s s.pc.toNat
    let b2 := readByte s (s.pc.toNat + 1)
    let es := readErrors s s.pc.toNat ++ readErrors s (s.pc.toNat + 1)
    step s = exec (decode b1 b2) { s with log := s.log ++ es, dirty := s.dirty || !es.isEmpty }

/-- A well-formed instruction placed where the machine fetches is the one that the next step runs, from any state
(the model's own helper `State.withFetchWord`, log entry 4; 30_encoding.md section 1). -/
def Obligations.PlacedWordIsTheNextInstruction : Prop :=
  ∀ (i : Instr) (s : State), i.wellFormed = true →
    decodeTableWord 16 (encodeWord i).toNat = some i ∧
    step (s.withFetchWord 16 (encodeWord i).toNat) = exec i (s.withFetchWord 16 (encodeWord i).toNat)

/-- A step always answers a next state: no error leaves the block as anything but log entries and Stopped (40_step_cycle.md
section 1, 60_exceptions.md section 1, 30_encoding.md section 2, where totality is derived). -/
def Obligations.EveryStepAnswersNextState : Prop :=
  (∀ s : State, ∃ t, step s = .next t) ∧ ∀ (i : Instr) (s : State), ∃ t, exec i s = .next t

/-- The whole commit. A step stops exactly on a HALT, an illegal encoding or an ADD overflow, and then keeps the counter
and the timer; every other step leaves the execution state, ticks the timer once, and sets the counter to the target of a
taken branch or else to `(pc0 + 2) mod 256` (40_step_cycle.md section 4, 60_exceptions.md section 10; the modulus is
decision D6 and the reading of stopping while Stopped decision D12). -/
def Obligations.StepStopsExactlyWhenSpecified : Prop :=
  ∀ s : State, ∃ t, step s = .next t ∧
    (stopsOn s (fetchedOpcode s) (fetchedOperand s) →
      t.execState = .stopped ∧ t.pc = s.pc ∧ t.timer = s.timer ∧ registersKept s t ∧ cellsKept s t) ∧
    (¬ stopsOn s (fetchedOpcode s) (fetchedOperand s) →
      t.execState = s.execState ∧ ticked s t ∧
      (takenOn s (fetchedOpcode s) → t.pc = fetchedOperand s) ∧
      (¬ takenOn s (fetchedOpcode s) → t.pc.toNat = (s.pc.toNat + 2) % 256))

/-- One step appends at most four entries, all of severity Error and of kinds the table gives to steps, removes none, and
sets the dirty flag exactly where it appends (40_step_cycle.md section 5, derived there). -/
def Obligations.StepAppendsAtMostFourErrors : Prop :=
  ∀ s t : State, step s = .next t → ∃ es : List LogEntry,
    t.log = s.log ++ es ∧ es.length ≤ 4 ∧ (∀ e ∈ es, e.sev = .error ∧ e.kind ≠ .runStart) ∧
    t.dirty = (s.dirty || !es.isEmpty)

/-- Only opcode 3 writes memory, and it writes no cell but the one its operand byte names; the host's edit command stores
any text unchanged and logs nothing (20_memory.md R44). -/
def Obligations.OnlyStoreWritesMemory : Prop :=
  (∀ s t : State, step s = .next t →
    ((fetchedOpcode s).toNat / 16 ≠ 3 → t.mem = s.mem) ∧
    ((fetchedOpcode s).toNat / 16 = 3 → ∀ a, a ≠ (fetchedOperand s).toNat → cellText t a = cellText s a)) ∧
  ∀ (s : State) (a : Nat) (x : Text), s.mem.wf → a ≤ 254 →
    ∃ t, hostCommand (.editCell a x) s = .next t ∧ cellText t a = x ∧ (∀ c, c ≠ a → cellText t c = cellText s c) ∧
      t.log = s.log ∧ t.dirty = s.dirty

/-- A step changes no general register but the one that the table of register writes names for the instruction it fetched
(10_state.md section 1, the table, derived there). -/
def Obligations.OnlyTheNamedRegisterChanges : Prop :=
  ∀ s t : State, step s = .next t →
    ∀ q, writtenRegister (fetchedOpcode s) (fetchedOperand s) ≠ some q → readReg t q = readReg s q

/-- The step does not read the execution state: from two states that differ in it only, it gives the same registers,
counter, timer, log, dirty flag and memory, and where the step does not stop the machine it leaves each execution state as
it was (40_step_cycle.md R68). -/
def Obligations.StepIgnoresExecutionState : Prop :=
  ∀ (s t : State) (e : ExecState), step s = .next t →
    ∃ u, step { s with execState := e } = .next u ∧ { u with execState := t.execState } = t ∧
      ((t.execState = s.execState ∧ u.execState = e) ∨ (t.execState = .stopped ∧ u.execState = .stopped))

/-- The timer's value has no effect: from two states that differ in it only, 0 included, a step gives states that differ in
it only (60_exceptions.md R125). -/
def Obligations.TimerHasNoEffectOnSteps : Prop :=
  ∀ (s t : State) (v : HalfWord), step s = .next t →
    ∃ u, step { s with timer := v } = .next u ∧ { u with timer := t.timer } = t ∧
      (v = 0 → u.timer = 0)

/-- A cell that the step does not read has no effect on it: rewriting such a cell before the step changes nothing but what
that cell holds after it (20_memory.md section 2, derived there). -/
def Obligations.UnreadCellsHaveNoEffect : Prop :=
  ∀ (s t : State) (a : Nat) (x : Text), a ∉ cellsRead s → step s = .next t →
    ∃ u, step (setCell s a x) = .next u ∧ u.regs = t.regs ∧ u.pc = t.pc ∧ u.timer = t.timer ∧
      u.execState = t.execState ∧ u.log = t.log ∧ u.dirty = t.dirty ∧ ∀ c, c ≠ a → cellText u c = cellText t c

/-- `timer_tick()` decrements the timer by one, floored at 0, and changes nothing else (60_exceptions.md R123). -/
def Obligations.TimerTickIsFlooredDecrement : Prop :=
  ∀ s : State, ((timerTick s).timer.toNat : Int) = max ((s.timer.toNat : Int) - 1) 0 ∧
    timerTick s = { s with timer := (timerTick s).timer }

/-- An instruction at 254 that neither branches nor stops leaves the counter at 0, and its operand byte is 0 with a
DecodeError entry that names 255 (40_step_cycle.md sections 2 and 4; decisions D5 and D6, the spec's own choices). -/
def Obligations.CounterWrapsAtTopOfMemory : Prop :=
  ∀ s t : State, s.pc = 254 → step s = .next t →
    fetchedOperand s = 0 ∧ logEntry .error .decodeError 255 ∈ t.log ∧
    (¬ stopsOn s (fetchedOpcode s) 0 → ¬ takenOn s (fetchedOpcode s) → t.pc = 0)

/-- A step whose opcode cell is blank or malformed, or at counter 255, stops with the entries in order: the opcode cell's
failure, the operand cell's if it fails too, then Unrecognized (44_reserved_unrecognized.md section 2, derived there). -/
def Obligations.UndecodableOpcodeCellStops : Prop :=
  ∀ s : State,
    (cellByte s s.pc.toNat = none →
      step s = .next { s with
        log := s.log ++ ([logEntry .error .decodeError s.pc.toNat] ++ readErrors s (s.pc.toNat + 1) ++
          [logEntry .error .unrecognized s.pc.toNat])
        dirty := true
        execState := .stopped }) ∧
    (s.pc = 255 →
      step s = .next { s with
        log := s.log ++ [logEntry .error .decodeError 255, logEntry .error .decodeError 256,
          logEntry .error .unrecognized 255]
        dirty := true
        execState := .stopped })

/-! ## The log and the execution state -/

/-- The engine never clears the dirty flag and never removes an entry, nor does any host command but the clear command
(the flag) and the two resets and run; the clear command clears the flag, and soft reset, full reset and run empty the log
and clear the flag, run then appending one entry (60_exceptions.md R113). -/
def Obligations.LogOnlyGrowsUntilReset : Prop :=
  (∀ s t : State, step s = .next t → (∃ es, t.log = s.log ++ es) ∧ (s.dirty = true → t.dirty = true)) ∧
  (∀ (c : HostCommand) (s t : State), c ≠ .softReset → c ≠ .fullReset → c ≠ .run → hostCommand c s = .next t →
    (∃ es, t.log = s.log ++ es) ∧ (c ≠ .clearDirty → s.dirty = true → t.dirty = true)) ∧
  ∀ s : State, (∃ t, hostCommand .clearDirty s = .next t ∧ t = { s with dirty := false }) ∧
    (softReset s).log = [] ∧ (softReset s).dirty = false ∧ (fullReset s).log = [] ∧ (fullReset s).dirty = false ∧
    ∃ e, (runCommand s).log = [e]

/-- Instructions only ever set the execution state to Stopped; the host sets Running by run, and by no other command, and
Stopped by full reset and the forced stop; the initial value is Stopped; and only Running lets a tick step (10_state.md
R22). How the model answers a tick while Stopped is not stated here. -/
def Obligations.OnlyRunStartsTheMachine : Prop :=
  State.reset.execState = .stopped ∧
  (∀ s t : State, step s = .next t → t.execState = s.execState ∨ t.execState = .stopped) ∧
  ∀ s : State,
    (∃ t, hostCommand .run s = .next t ∧ t.execState = .running) ∧
    (∃ t, hostCommand .fullReset s = .next t ∧ t.execState = .stopped) ∧
    (∃ t, hostCommand .forceStop s = .next t ∧ t = { s with execState := .stopped }) ∧
    (s.execState = .running → hostCommand .tick s = step s) ∧
    (s.execState = .stopped → ∀ t, hostCommand .tick s ≠ .next t) ∧
    ∀ (c : HostCommand) (t : State), c ≠ .run → hostCommand c s = .next t → t.execState = .running →
      s.execState = .running

/-- The displayed text of an entry of every severity, kind and address is the severity's name, a colon, a space and the
message of the kind at the address; the three messages that the document quotes are fixed (60_exceptions.md section 2; which
messages are free is decision D7, log entry 2). -/
def Obligations.QuotedMessagesAreFixed : Prop :=
  (∀ (sev : Severity) (k : EntryKind) (a : Nat),
    displayEntry (logEntry sev k a) =
      (match sev with
        | .info => "Info"
        | .warning => "Warning"
        | .error => "Error").toList ++ [':', ' '] ++ messageOf k a) ∧
  ∀ a : Nat,
    messageOf .moveForm a = "opcode 0x4 must be followed by 0".toList ∧
    messageOf .reserved6 a = "Developing opcode 0x6".toList ∧
    messageOf .unrecognized a = "opcode not recognized".toList ∧
    displayEntry (logEntry .error .moveForm a) = "Error: opcode 0x4 must be followed by 0".toList ∧
    displayEntry (logEntry .error .reserved6 a) = "Error: Developing opcode 0x6".toList ∧
    displayEntry (logEntry .error .unrecognized a) = "Error: opcode not recognized".toList

/-! ## Reset and the host's commands -/

/-- Every element of the state at creation (70_reset_and_hazards.md section 1; the dirty flag is decision D11 and the blank
text decision D1, the spec's own choices). -/
def Obligations.CreationState : Prop :=
  (∀ q, readReg State.reset q = 0) ∧ (∀ a, cellText State.reset a = "".toList) ∧ State.reset.pc = 0 ∧
  State.reset.timer.toNat = 500 ∧ State.reset.execState = .stopped ∧ State.reset.log = [] ∧ State.reset.dirty = false

/-- Full reset is idempotent, and what it leaves, from every state, is all-blank memory, counter and registers 0, timer
500, an empty log, and Stopped (70_reset_and_hazards.md R139). Which text `blank` is, it does not state. -/
def Obligations.FullResetIsIdempotent : Prop :=
  ∀ s : State, hostCommand .fullReset s = .next (fullReset s) ∧ fullReset (fullReset s) = fullReset s ∧
    (∀ a, cellText (fullReset s) a = blank) ∧ (fullReset s).pc = 0 ∧ (∀ q, readReg (fullReset s) q = 0) ∧
    (fullReset s).timer.toNat = 500 ∧ (fullReset s).log = [] ∧ (fullReset s).execState = .stopped

/-- Soft reset zeroes the registers, sets the timer to 500, empties the log, clears the dirty flag, and keeps memory,
counter and execution state (70_reset_and_hazards.md section 1; that the execution state is kept is derived there). -/
def Obligations.SoftResetKeepsProgramAndCounter : Prop :=
  ∀ s : State, ∃ t, hostCommand .softReset s = .next t ∧ (∀ q, readReg t q = 0) ∧ t.timer.toNat = 500 ∧ t.log = [] ∧
    t.dirty = false ∧ cellsKept s t ∧ t.pc = s.pc ∧ t.execState = s.execState

/-- Run, from either execution state, soft-resets, sets Running, and leaves one Info entry that names the counter
(70_reset_and_hazards.md section 1; admitting it while Running is decision D25). -/
def Obligations.RunStartsFromCleanRegisters : Prop :=
  ∀ s : State, ∃ t, hostCommand .run s = .next t ∧ (∀ q, readReg t q = 0) ∧ t.timer.toNat = 500 ∧
    t.execState = .running ∧ t.log = [logEntry .info .runStart s.pc.toNat] ∧ t.dirty = true ∧ t.pc = s.pc ∧ cellsKept s t

/-- A host write is admitted exactly within its range, and outside it is refused (70_reset_and_hazards.md section 3;
refusing is decision D16, the spec's own choice). -/
def Obligations.HostWritesAreRangeChecked : Prop :=
  ∀ (s : State) (v : Nat),
    (v ≤ 1500 → ∃ t, hostCommand (.setTimer v) s = .next t ∧ t.timer.toNat = v ∧ t = { s with timer := t.timer }) ∧
    (1500 < v → hostCommand (.setTimer v) s = .refused .timerOutOfRange) ∧
    (v ≤ 255 → ∃ t, hostCommand (.setCounter v) s = .next t ∧ t.pc.toNat = v ∧ t = { s with pc := t.pc }) ∧
    (255 < v → hostCommand (.setCounter v) s = .refused .counterOutOfRange) ∧
    (∀ x, v ≤ 254 → hostCommand (.editCell v x) s = .next (setCell s v x)) ∧
    (∀ x, 254 < v → hostCommand (.editCell v x) s = .refused .cellOutOfRange)

/-- `edit_cell` stores any text exactly as given, valid or not, in a memory in canonical form, and logs nothing;
`set_timer` and `set_counter` log nothing and keep the execution state (70_reset_and_hazards.md R149). -/
def Obligations.HostEditsStoreAnyTextSilently : Prop :=
  ∀ (s : State) (a v : Nat) (x : Text), s.mem.wf →
    (a ≤ 254 → ∃ t, hostCommand (.editCell a x) s = .next t ∧ cellText t a = x ∧
      (∀ c, c ≠ a → cellText t c = cellText s c) ∧ t = { s with mem := t.mem }) ∧
    (∀ t, hostCommand (.setTimer v) s = .next t ∨ hostCommand (.setCounter v) s = .next t →
      t.log = s.log ∧ t.dirty = s.dirty ∧ t.execState = s.execState)

/-- The debug step runs the step exactly once, whatever the execution state, and neither starts the machine nor stops it
by itself (70_reset_and_hazards.md R138). -/
def Obligations.DebugStepRunsExactlyOneStep : Prop :=
  ∀ s : State, hostCommand .debugStep s = step s ∧
    ∀ t, hostCommand .debugStep s = .next t → t.execState ≠ s.execState →
      t.execState = .stopped ∧ stopsOn s (fetchedOpcode s) (fetchedOperand s)

/-! ## Invariants and runs -/

/-- The state at creation meets the invariant. -/
def Obligations.CreationMeetsInvariant : Prop := Inv State.reset

/-- Every step keeps the invariant: memory in canonical form, the timer within its bound, and only entries of the table in
the log (10_state.md sections 4 and 5, 60_exceptions.md section 2; the canonical form is the model's, log entry 1). -/
def Obligations.EveryStepKeepsInvariant : Prop :=
  ∀ s t : State, Inv s → step s = .next t → Inv t

/-- Every schedule of host commands, admitted or refused, keeps the invariant (70_reset_and_hazards.md section 3; the
schedule is the open parameter of decision D15). -/
def Obligations.EveryScheduleKeepsInvariant : Prop :=
  ∀ (cs : List HostCommand) (s : State), Inv s → Inv (afterSchedule cs s)

/-- After `n` ticks that do not stop the machine the timer has lost `n`, floored at 0 (60_exceptions.md section 8, derived
there). -/
def Obligations.TimerAfterRunningTicks : Prop :=
  ∀ (n : Nat) (s t : State), s.execState = .running → runningTicks n s t → t.timer.toNat = s.timer.toNat - n

/-- A run ends exactly at the first instruction that stops the machine. Where a run ends, its last step starts at a Running
state of the run whose fetched instruction is a HALT, an illegal encoding or an ADD overflow; that step keeps counter,
timer, registers and cells, and no tick is admitted after it. Conversely a run that reaches such a state ends at the step
from it (70_reset_and_hazards.md section 4, 60_exceptions.md section 10; what a run is, is decision D24, the spec's own
choice, and that the tick is refused by name is log entry 18). -/
def Obligations.RunEndsAtStoppingInstruction : Prop :=
  ∀ s t : State,
    (runEndsIn s t → ∃ (n : Nat) (u : State), runFor n (runCommand s) = u ∧ u.execState = .running ∧
      stopsOn u (fetchedOpcode u) (fetchedOperand u) ∧ step u = .next t ∧
      t.pc = u.pc ∧ t.timer = u.timer ∧ registersKept u t ∧ cellsKept u t ∧
      hostCommand .tick t = .refused .tickWhileStopped) ∧
    ∀ (n : Nat) (u : State), runFor n (runCommand s) = u → u.execState = .running →
      stopsOn u (fetchedOpcode u) (fetchedOperand u) → step u = .next t → runEndsIn s t

/-- Running again after a HALT executes the same HALT first and stops at once at the same counter, with registers 0, timer
500 and the one RunStart entry (43_control.md section 2, derived there). -/
def Obligations.RunAfterHaltStopsAtOnce : Prop :=
  ∀ s : State, cellByte s s.pc.toNat = some 0xC0 → cellByte s (s.pc.toNat + 1) = some 0x00 →
    ∃ t, step (runCommand s) = .next t ∧ t = { runCommand s with execState := .stopped } ∧ t.pc = s.pc
end

