-- ==== Sys2Proof/Laws/Decode.lean ====
section
/-! SUPPORT. The fields of bytes built from nibbles, and the decoder on an opcode byte built from its two nibbles. -/

namespace Sys2Proof

/-- A byte built from two nibbles, as a number. -/
theorem nibbles_toNat (o r : Nibble) : (o ++ r).toNat = o.toNat * 16 + r.toNat := by
  rw [BitVec.toNat_append, ← Nat.shiftLeft_add_eq_or_of_lt r.isLt, Nat.shiftLeft_eq]

@[simp] theorem nibbles_div (o r : Nibble) : (o ++ r).toNat / 16 = o.toNat := by
  have := nibbles_toNat o r
  have := r.isLt
  omega

@[simp] theorem nibbles_mod (o r : Nibble) : (o ++ r).toNat % 16 = r.toNat := by
  have := nibbles_toNat o r
  have := r.isLt
  omega

@[simp] theorem opField_append (o r : Nibble) : opField (o ++ r) = o := by
  apply BitVec.eq_of_toNat_eq
  have := o.isLt
  have := nibbles_div o r
  simp only [opField, BitVec.extractLsb'_toNat, Nat.shiftRight_eq_div_pow]
  omega

@[simp] theorem regField_append (o r : Nibble) : regField (o ++ r) = r := by
  apply BitVec.eq_of_toNat_eq
  have := nibbles_mod o r
  simp only [regField, BitVec.extractLsb'_toNat, Nat.shiftRight_eq_div_pow]
  omega

@[simp] theorem hiField_append (h l : Nibble) : hiField (h ++ l) = h := opField_append h l

@[simp] theorem loField_append (h l : Nibble) : loField (h ++ l) = l := regField_append h l

/-- A byte is its two nibbles. -/
theorem opField_append_regField (b : Byte) : opField b ++ regField b = b := by
  apply BitVec.eq_of_toNat_eq
  have := b.isLt
  rw [nibbles_toNat]
  simp only [opField, regField, BitVec.extractLsb'_toNat, Nat.shiftRight_eq_div_pow]
  omega

/-- Every byte is built from two nibbles. -/
theorem byte_eq_nibbles (b : Byte) : ∃ o r : Nibble, b = o ++ r := ⟨_, _, (opField_append_regField b).symm⟩

/-- The twelve ignored bits, split as the encoder splits them. -/
theorem rest_split (rest : BitVec 12) : (rest.extractLsb' 8 4 : Nibble) ++ (rest.extractLsb' 0 8 : Byte) = rest := by
  apply BitVec.eq_of_toNat_eq
  have := rest.isLt
  simp only [BitVec.extractLsb'_toNat, BitVec.toNat_append, Nat.shiftRight_eq_div_pow]
  rw [← Nat.shiftLeft_add_eq_or_of_lt (by omega), Nat.shiftLeft_eq]
  omega

/-- The four bits that the decoder tests are those of the opcode nibble. -/
theorem opcode_bits (o r : Nibble) : (o ++ r : BitVec 8)[7] = o[3] ∧ (o ++ r : BitVec 8)[6] = o[2] ∧
    (o ++ r : BitVec 8)[5] = o[1] ∧ (o ++ r : BitVec 8)[4] = o[0] := by
  revert o r
  decide +kernel

/-- The decoder on an opcode byte whose nibbles are known: the opcode map, with `reg` read off. -/
theorem decode_append (o r : Nibble) (b2 : Byte) : decode (o ++ r) b2 =
    match o[3], o[2], o[1], o[0] with
    | false, false, false, false => .unrecognized0 (r ++ b2)
    | false, false, false, true => .load r b2
    | false, false, true, false => .loadi r b2
    | false, false, true, true => .store r b2
    | false, true, false, false =>
      if r = 0 then .move (hiField b2) (loField b2) else .moveIllegal r (hiField b2) (loField b2)
    | false, true, false, true => .add r (hiField b2) (loField b2)
    | false, true, true, false => .reserved6 (r ++ b2)
    | false, true, true, true => .or r (hiField b2) (loField b2)
    | true, false, false, false => .and r (hiField b2) (loField b2)
    | true, false, false, true => .xor r (hiField b2) (loField b2)
    | true, false, true, false =>
      if hiField b2 = 0 then .ror r (loField b2) else .rorIllegal r (hiField b2) (loField b2)
    | true, false, true, true => .beq r b2
    | true, true, false, false => if r = 0 ∧ b2 = 0 then .halt else .haltMalformed r b2
    | true, true, false, true => .unrecognizedD (r ++ b2)
    | true, true, true, false => .unrecognizedE (r ++ b2)
    | true, true, true, true => .unrecognizedF (r ++ b2) := by
  obtain ⟨h7, h6, h5, h4⟩ := opcode_bits o r
  unfold decode
  rw [h7, h6, h5, h4]
  simp only [restField, regField_append]
  all_goals rfl

end Sys2Proof
end

