-- ==== Sys2Proof/Laws/Memory.lean ====
section
/-! SUPPORT. The laws of the memory's data: reading after a write, and every write keeps the canonical form. -/

namespace Sys2Proof.Machine

@[simp] theorem Memory.read_nil (a : Nat) : Memory.read [] a = blank := rfl

theorem Memory.read_cons (b : Nat) (u : Text) (m : Memory) (a : Nat) :
    Memory.read ((b, u) :: m) a = if b = a then u else Memory.read m a := rfl

/-- Every cell but the one written reads as before, in every memory. -/
theorem Memory.read_write_other (m : Memory) (a c : Nat) (t : Text) (h : c ≠ a) :
    Memory.read (Memory.write m a t) c = Memory.read m c := by
  induction m with
  | nil =>
    by_cases ht : t = blank <;> simp [Memory.write, Memory.read, ht, Ne.symm h]
  | cons e m ih =>
    obtain ⟨b, u⟩ := e
    unfold Memory.write
    split
    · split
      · rfl
      · rw [Memory.read_cons, if_neg (Ne.symm h)]
    · split
      · rename_i hab
        subst hab
        split
        · rw [Memory.read_cons, if_neg (Ne.symm h)]
        · rw [Memory.read_cons, if_neg (Ne.symm h), Memory.read_cons, if_neg (Ne.symm h)]
      · rw [Memory.read_cons, Memory.read_cons, ih]

/-- The cell written with a text that is not blank reads as that text, in every memory. -/
theorem Memory.read_write_self (m : Memory) (a : Nat) (t : Text) (ht : t ≠ blank) :
    Memory.read (Memory.write m a t) a = t := by
  induction m with
  | nil => simp [Memory.write, Memory.read, ht]
  | cons e m ih =>
    obtain ⟨b, u⟩ := e
    unfold Memory.write
    simp only [ht, if_false]
    split
    · simp [Memory.read_cons]
    · split
      · simp [Memory.read_cons]
      · rename_i hab
        rw [Memory.read_cons, if_neg (Ne.symm hab), ih]

/-- An address below every listed address reads as blank. -/
theorem Memory.read_below (m : Memory) (a : Nat) (h : ∀ c ∈ m, a < c.1) : Memory.read m a = blank := by
  induction m with
  | nil => rfl
  | cons e m ih =>
    have hb := h e (by simp)
    rw [show e = (e.1, e.2) from rfl, Memory.read_cons, if_neg (by omega)]
    exact ih (fun c hc => h c (by simp [hc]))

/-- In a memory in canonical form the cell written reads as the text written, blank or not. -/
theorem Memory.read_write_self_of_wf (m : Memory) (a : Nat) (t : Text) (h : m.wf) :
    Memory.read (Memory.write m a t) a = t := by
  by_cases ht : t = blank
  · subst ht
    obtain ⟨hp, -⟩ := h
    induction m with
    | nil => rfl
    | cons e m ih =>
      obtain ⟨b, u⟩ := e
      obtain ⟨hlt, hp'⟩ := List.pairwise_cons.mp hp
      unfold Memory.write
      simp only [if_true]
      split
      · rename_i hab
        apply Memory.read_below
        intro c hc
        rcases List.mem_cons.mp hc with rfl | hc
        · exact hab
        · exact Nat.lt_trans hab (hlt c hc)
      · split
        · rename_i hab
          subst hab
          exact Memory.read_below m a (fun c hc => hlt c hc)
        · rename_i hab
          rw [Memory.read_cons, if_neg (Ne.symm hab), ih hp']
  · exact Memory.read_write_self m a t ht

/-- The entries of a written memory are the entries of the old one and, at most, the one written. -/
theorem Memory.mem_write (m : Memory) (a : Nat) (t : Text) (c : Nat × Text) (h : c ∈ Memory.write m a t) :
    c ∈ m ∨ (c = (a, t) ∧ t ≠ blank) := by
  induction m with
  | nil =>
    by_cases ht : t = blank
    · simp [Memory.write, ht] at h
    · simp only [Memory.write, ht, if_false, List.mem_singleton] at h
      exact .inr ⟨h, ht⟩
  | cons e m ih =>
    obtain ⟨b, u⟩ := e
    unfold Memory.write at h
    split at h
    · split at h
      · exact .inl h
      · rename_i ht
        rcases List.mem_cons.mp h with rfl | h
        · exact .inr ⟨rfl, ht⟩
        · exact .inl h
    · split at h
      · split at h
        · exact .inl (List.mem_cons_of_mem _ h)
        · rename_i ht
          rcases List.mem_cons.mp h with rfl | h
          · exact .inr ⟨rfl, ht⟩
          · exact .inl (List.mem_cons_of_mem _ h)
      · rcases List.mem_cons.mp h with rfl | h
        · exact .inl (by simp)
        · rcases ih h with h | h
          · exact .inl (List.mem_cons_of_mem _ h)
          · exact .inr h

/-- Writing a cell that exists keeps the canonical form. -/
theorem Memory.write_wf (m : Memory) (a : Nat) (t : Text) (h : m.wf) (ha : a < memCells) :
    (Memory.write m a t).wf := by
  obtain ⟨hp, hc⟩ := h
  refine ⟨?_, fun c hcm => ?_⟩
  · clear hc
    induction m with
    | nil => by_cases ht : t = blank <;> simp [Memory.write, ht]
    | cons e m ih =>
      obtain ⟨b, u⟩ := e
      obtain ⟨hlt, hp'⟩ := List.pairwise_cons.mp hp
      unfold Memory.write
      split
      · rename_i hab
        split
        · exact hp
        · refine List.pairwise_cons.mpr ⟨fun c hc => ?_, hp⟩
          rcases List.mem_cons.mp hc with rfl | hc
          · exact hab
          · exact Nat.lt_trans hab (hlt c hc)
      · split
        · rename_i hab
          subst hab
          split
          · exact hp'
          · exact List.pairwise_cons.mpr ⟨hlt, hp'⟩
        · rename_i h1 h2
          refine List.pairwise_cons.mpr ⟨fun c hc => ?_, ih hp'⟩
          rcases Memory.mem_write m a t c hc with hc | ⟨rfl, -⟩
          · exact hlt c hc
          · exact Nat.lt_of_le_of_ne (Nat.le_of_not_lt h1) (Ne.symm h2)
  · rcases Memory.mem_write m a t c hcm with h | ⟨rfl, ht⟩
    · exact hc c h
    · exact ⟨ha, ht⟩

/-- The blank memory has the canonical form. -/
theorem Memory.nil_wf : Memory.wf [] := ⟨List.Pairwise.nil, fun _ h => by cases h⟩

end Sys2Proof.Machine
end

