-- ==== Sys2Proof/Laws/State.lean ====
section
/-! SUPPORT. One lemma per field per update of the state, true by definition. -/

namespace Sys2Proof.Machine

@[simp] theorem setPc_regs (s : State) (t : Byte) : (setPc s t).regs = s.regs := rfl
@[simp] theorem setPc_pc (s : State) (t : Byte) : (setPc s t).pc = t := rfl
@[simp] theorem setPc_timer (s : State) (t : Byte) : (setPc s t).timer = s.timer := rfl
@[simp] theorem setPc_execState (s : State) (t : Byte) : (setPc s t).execState = s.execState := rfl
@[simp] theorem setPc_log (s : State) (t : Byte) : (setPc s t).log = s.log := rfl
@[simp] theorem setPc_dirty (s : State) (t : Byte) : (setPc s t).dirty = s.dirty := rfl
@[simp] theorem setPc_mem (s : State) (t : Byte) : (setPc s t).mem = s.mem := rfl

@[simp] theorem writeReg_regs (s : State) (i : Nibble) (v : Byte) : (writeReg s i v).regs = s.regs.set i.toNat v i.isLt := rfl
@[simp] theorem writeReg_pc (s : State) (i : Nibble) (v : Byte) : (writeReg s i v).pc = s.pc := rfl
@[simp] theorem writeReg_timer (s : State) (i : Nibble) (v : Byte) : (writeReg s i v).timer = s.timer := rfl
@[simp] theorem writeReg_execState (s : State) (i : Nibble) (v : Byte) : (writeReg s i v).execState = s.execState := rfl
@[simp] theorem writeReg_log (s : State) (i : Nibble) (v : Byte) : (writeReg s i v).log = s.log := rfl
@[simp] theorem writeReg_dirty (s : State) (i : Nibble) (v : Byte) : (writeReg s i v).dirty = s.dirty := rfl
@[simp] theorem writeReg_mem (s : State) (i : Nibble) (v : Byte) : (writeReg s i v).mem = s.mem := rfl

@[simp] theorem timerTick_regs (s : State) : (timerTick s).regs = s.regs := rfl
@[simp] theorem timerTick_pc (s : State) : (timerTick s).pc = s.pc := rfl
@[simp] theorem timerTick_timer (s : State) : (timerTick s).timer = BitVec.ofNat 16 (s.timer.toNat - 1) := rfl
@[simp] theorem timerTick_execState (s : State) : (timerTick s).execState = s.execState := rfl
@[simp] theorem timerTick_log (s : State) : (timerTick s).log = s.log := rfl
@[simp] theorem timerTick_dirty (s : State) : (timerTick s).dirty = s.dirty := rfl
@[simp] theorem timerTick_mem (s : State) : (timerTick s).mem = s.mem := rfl

@[simp] theorem stopMachine_regs (s : State) : (stopMachine s).regs = s.regs := rfl
@[simp] theorem stopMachine_pc (s : State) : (stopMachine s).pc = s.pc := rfl
@[simp] theorem stopMachine_timer (s : State) : (stopMachine s).timer = s.timer := rfl
@[simp] theorem stopMachine_execState (s : State) : (stopMachine s).execState = .stopped := rfl
@[simp] theorem stopMachine_log (s : State) : (stopMachine s).log = s.log := rfl
@[simp] theorem stopMachine_dirty (s : State) : (stopMachine s).dirty = s.dirty := rfl
@[simp] theorem stopMachine_mem (s : State) : (stopMachine s).mem = s.mem := rfl

@[simp] theorem appendLog_regs (v : Severity) (k : EntryKind) (a : Nat) (s : State) : (appendLog v k a s).regs = s.regs := rfl
@[simp] theorem appendLog_pc (v : Severity) (k : EntryKind) (a : Nat) (s : State) : (appendLog v k a s).pc = s.pc := rfl
@[simp] theorem appendLog_timer (v : Severity) (k : EntryKind) (a : Nat) (s : State) : (appendLog v k a s).timer = s.timer := rfl
@[simp] theorem appendLog_execState (v : Severity) (k : EntryKind) (a : Nat) (s : State) : (appendLog v k a s).execState = s.execState := rfl
@[simp] theorem appendLog_log (v : Severity) (k : EntryKind) (a : Nat) (s : State) : (appendLog v k a s).log = s.log ++ [logEntry v k a] := rfl
@[simp] theorem appendLog_dirty (v : Severity) (k : EntryKind) (a : Nat) (s : State) : (appendLog v k a s).dirty = true := rfl
@[simp] theorem appendLog_mem (v : Severity) (k : EntryKind) (a : Nat) (s : State) : (appendLog v k a s).mem = s.mem := rfl

@[simp] theorem setCell_regs (s : State) (a : Nat) (t : Text) : (setCell s a t).regs = s.regs := rfl
@[simp] theorem setCell_pc (s : State) (a : Nat) (t : Text) : (setCell s a t).pc = s.pc := rfl
@[simp] theorem setCell_timer (s : State) (a : Nat) (t : Text) : (setCell s a t).timer = s.timer := rfl
@[simp] theorem setCell_execState (s : State) (a : Nat) (t : Text) : (setCell s a t).execState = s.execState := rfl
@[simp] theorem setCell_log (s : State) (a : Nat) (t : Text) : (setCell s a t).log = s.log := rfl
@[simp] theorem setCell_dirty (s : State) (a : Nat) (t : Text) : (setCell s a t).dirty = s.dirty := rfl
@[simp] theorem setCell_mem (s : State) (a : Nat) (t : Text) : (setCell s a t).mem = s.mem.write a t := rfl

@[simp] theorem softReset_regs (s : State) : (softReset s).regs = Vector.replicate 16 0 := rfl
@[simp] theorem softReset_pc (s : State) : (softReset s).pc = s.pc := rfl
@[simp] theorem softReset_timer (s : State) : (softReset s).timer = BitVec.ofNat 16 timerReset := rfl
@[simp] theorem softReset_execState (s : State) : (softReset s).execState = s.execState := rfl
@[simp] theorem softReset_log (s : State) : (softReset s).log = [] := rfl
@[simp] theorem softReset_dirty (s : State) : (softReset s).dirty = false := rfl
@[simp] theorem softReset_mem (s : State) : (softReset s).mem = s.mem := rfl

@[simp] theorem fullReset_regs (s : State) : (fullReset s).regs = Vector.replicate 16 0 := rfl
@[simp] theorem fullReset_pc (s : State) : (fullReset s).pc = 0 := rfl
@[simp] theorem fullReset_timer (s : State) : (fullReset s).timer = BitVec.ofNat 16 timerReset := rfl
@[simp] theorem fullReset_execState (s : State) : (fullReset s).execState = .stopped := rfl
@[simp] theorem fullReset_log (s : State) : (fullReset s).log = [] := rfl
@[simp] theorem fullReset_dirty (s : State) : (fullReset s).dirty = false := rfl
@[simp] theorem fullReset_mem (s : State) : (fullReset s).mem = [] := rfl

@[simp] theorem runCommand_regs (s : State) : (runCommand s).regs = Vector.replicate 16 0 := rfl
@[simp] theorem runCommand_pc (s : State) : (runCommand s).pc = s.pc := rfl
@[simp] theorem runCommand_timer (s : State) : (runCommand s).timer = BitVec.ofNat 16 timerReset := rfl
@[simp] theorem runCommand_execState (s : State) : (runCommand s).execState = .running := rfl
@[simp] theorem runCommand_log (s : State) : (runCommand s).log = [logEntry .info .runStart s.pc.toNat] := rfl
@[simp] theorem runCommand_dirty (s : State) : (runCommand s).dirty = true := rfl
@[simp] theorem runCommand_mem (s : State) : (runCommand s).mem = s.mem := rfl

/-- Two states with equal fields are equal. -/
theorem State.eq_of_fields (s t : State) (h1 : s.regs = t.regs) (h2 : s.pc = t.pc) (h3 : s.timer = t.timer)
    (h4 : s.execState = t.execState) (h5 : s.log = t.log) (h6 : s.dirty = t.dirty) (h7 : s.mem = t.mem) : s = t := by
  cases s; cases t; simp_all

end Sys2Proof.Machine
end

