-- ==== Sys2Proof/Laws/Ops.lean ====
section
/-! SUPPORT. For each shared operation, once, everything it can do. -/

namespace Sys2Proof.Machine

theorem readReg_writeReg (s : State) (i q : Nibble) (v : Byte) :
    readReg (writeReg s i v) q = if q = i then v else readReg s q := by
  unfold readReg writeReg
  simp only [Vector.getElem_set]
  by_cases h : q = i
  · simp [h]
  · have : i.toNat ≠ q.toNat := fun e => h (BitVec.eq_of_toNat_eq e.symm)
    simp [h, this]

@[simp] theorem readReg_writeReg_self (s : State) (i : Nibble) (v : Byte) : readReg (writeReg s i v) i = v := by
  simp [readReg_writeReg]

/-- A register's value depends on the register file alone. -/
theorem readReg_congr (s t : State) (q : Nibble) (h : t.regs = s.regs) : readReg t q = readReg s q := by
  simp [readReg, h]

@[simp] theorem readReg_setPc (s : State) (t : Byte) (q : Nibble) : readReg (setPc s t) q = readReg s q := rfl
@[simp] theorem readReg_timerTick (s : State) (q : Nibble) : readReg (timerTick s) q = readReg s q := rfl
@[simp] theorem readReg_stopMachine (s : State) (q : Nibble) : readReg (stopMachine s) q = readReg s q := rfl
@[simp] theorem readReg_setCell (s : State) (a : Nat) (t : Text) (q : Nibble) :
    readReg (setCell s a t) q = readReg s q := rfl
@[simp] theorem readReg_appendLog (v : Severity) (k : EntryKind) (a : Nat) (s : State) (q : Nibble) :
    readReg (appendLog v k a s) q = readReg s q := rfl
@[simp] theorem readReg_withEntries (s : State) (es : List LogEntry) (q : Nibble) :
    readReg (withEntries s es) q = readReg s q := rfl

@[simp] theorem cellText_setPc (s : State) (t : Byte) (a : Nat) : cellText (setPc s t) a = cellText s a := rfl
@[simp] theorem cellText_timerTick (s : State) (a : Nat) : cellText (timerTick s) a = cellText s a := rfl
@[simp] theorem cellText_stopMachine (s : State) (a : Nat) : cellText (stopMachine s) a = cellText s a := rfl
@[simp] theorem cellText_writeReg (s : State) (i : Nibble) (v : Byte) (a : Nat) :
    cellText (writeReg s i v) a = cellText s a := rfl
@[simp] theorem cellText_appendLog (v : Severity) (k : EntryKind) (c : Nat) (s : State) (a : Nat) :
    cellText (appendLog v k c s) a = cellText s a := rfl
@[simp] theorem cellText_withEntries (s : State) (es : List LogEntry) (a : Nat) :
    cellText (withEntries s es) a = cellText s a := rfl
@[simp] theorem cellByte_withEntries (s : State) (es : List LogEntry) (a : Nat) :
    cellByte (withEntries s es) a = cellByte s a := rfl

theorem cellText_setCell_other (s : State) (a c : Nat) (t : Text) (h : c ≠ a) :
    cellText (setCell s a t) c = cellText s c := Memory.read_write_other s.mem a c t h

theorem cellText_setCell_self (s : State) (a : Nat) (t : Text) (ht : t ≠ blank) :
    cellText (setCell s a t) a = t := Memory.read_write_self s.mem a t ht

@[simp] theorem withEntries_nil (s : State) : withEntries s [] = s := by
  simp [withEntries]

theorem withEntries_withEntries (s : State) (es fs : List LogEntry) :
    withEntries (withEntries s es) fs = withEntries s (es ++ fs) := by
  cases es <;> cases fs <;> simp [withEntries]

/-- Appending one entry, in the terms of claims. -/
theorem appendLog_eq_withEntries (v : Severity) (k : EntryKind) (a : Nat) (s : State) :
    appendLog v k a s = withEntries s [logEntry v k a] := by
  simp [appendLog, withEntries]

/-- A fail-soft read: the byte, and the state with the entries of the read. -/
theorem memRead_eq (a : Nat) (s : State) : memRead a s = (readByte s a, withEntries s (readErrors s a)) := by
  unfold memRead readByte readErrors
  cases h : cellByte s a <;> simp [appendLog_eq_withEntries]

/-- A write to a cell that exists. -/
theorem memWrite_of_lt (a : Nat) (v : Byte) (s : State) (h : a < memCells) :
    memWrite a v s = setCell s a (hex2 v) := by
  unfold memWrite
  rw [if_neg (by omega)]

/-- A write to an address that names no cell. -/
theorem memWrite_of_ge (a : Nat) (v : Byte) (s : State) (h : memCells ≤ a) :
    memWrite a v s = withEntries s [logEntry .error .storeOutOfRange a] := by
  unfold memWrite
  rw [if_pos h, appendLog_eq_withEntries]

/-- The fetch: the two bytes, and the state with the entries of the failed reads. -/
theorem fetch_eq (s : State) : fetch s = ⟨fetchedOpcode s, fetchedOperand s, afterFetch s⟩ := by
  simp [fetch, memRead_eq, fetchedOpcode, fetchedOperand, afterFetch, withEntries_withEntries, readByte, readErrors]

/-- A fatal error: the rule stops in the state that claims name. -/
theorem raiseFatal_eq (k : EntryKind) (s : State) : raiseFatal k s = ⟨.stop, fatalState s k⟩ := rfl

theorem commit_next (pc0 : Byte) (s : State) : commit pc0 ⟨.next, s⟩ = timerTick (setPc s (pcAdvance pc0)) := rfl
theorem commit_taken (pc0 t : Byte) (s : State) : commit pc0 ⟨.taken t, s⟩ = timerTick (setPc s t) := rfl
theorem commit_stop (pc0 : Byte) (s : State) : commit pc0 ⟨.stop, s⟩ = s := rfl

theorem pcAdvance_toNat (p : Byte) : (pcAdvance p).toNat = (p.toNat + 2) % 256 := by
  simp [pcAdvance, instrCells]

theorem timerTick_toNat (s : State) : (timerTick s).timer.toNat = s.timer.toNat - 1 := by
  have := s.timer.isLt
  simp only [timerTick_timer, BitVec.toNat_ofNat]
  omega

/-- A rule run and committed always answers a next state: the commit of what the rule returns. -/
theorem runRule_eq (rule : State → Ruled) (s : State) : runRule rule s = .next (commit s.pc (rule s)) := rfl

theorem hex2_ne_blank (v : Byte) : hex2 v ≠ blank := by simp [hex2, blank]

/-- Replacing the text of a cell that exists keeps the canonical form. -/
theorem setCell_wf (s : State) (a : Nat) (t : Text) (h : s.mem.wf) (ha : a < memCells) : (setCell s a t).mem.wf :=
  Memory.write_wf s.mem a t h ha

/-- A read keeps the memory. -/
theorem memRead_mem (a : Nat) (s : State) : (memRead a s).2.mem = s.mem := by
  rw [memRead_eq]
  rfl

/-- A write, to a cell or dropped, keeps the canonical form. -/
theorem memWrite_wf (a : Nat) (v : Byte) (s : State) (h : s.mem.wf) : (memWrite a v s).mem.wf := by
  by_cases ha : a < memCells
  · rw [memWrite_of_lt a v s ha]
    exact setCell_wf s a _ h ha
  · rw [memWrite_of_ge a v s (Nat.le_of_not_lt ha)]
    exact h

/-- Placing an instruction for the next fetch keeps the canonical form. -/
theorem placeAtCounter_wf (s : State) (b1 b2 : Byte) (h : s.mem.wf) : (placeAtCounter s b1 b2).mem.wf := by
  have hp : (placingCounter s).toNat + 1 < memCells := by
    unfold placingCounter
    split
    · assumption
    · decide
  exact setCell_wf _ _ _ (setCell_wf _ _ _ h (Nat.lt_of_succ_lt hp)) hp

/-- The memory at creation has the canonical form. -/
theorem reset_mem_wf : State.reset.mem.wf := Memory.nil_wf

end Sys2Proof.Machine
end

