-- ==== Sys2Proof/Laws/PerInstr.lean ====
section
/-! SUPPORT. The family of per-instruction laws: every instruction is encoded under the opcode that the opcode map gives its
row (30_encoding.md R59). -/

namespace Sys2Proof

/-- The opcode of an instruction's row in the opcode map (30_encoding.md R59). -/
def Laws.opcodeOf : Instr → Nibble
  | .load _ _ => 1
  | .loadi _ _ => 2
  | .store _ _ => 3
  | .move _ _ => 4
  | .moveIllegal _ _ _ => 4
  | .add _ _ _ => 5
  | .reserved6 _ => 6
  | .or _ _ _ => 7
  | .and _ _ _ => 8
  | .xor _ _ _ => 9
  | .ror _ _ => 10
  | .rorIllegal _ _ _ => 10
  | .beq _ _ => 11
  | .halt => 12
  | .haltMalformed _ _ => 12
  | .unrecognized0 _ => 0
  | .unrecognizedD _ => 13
  | .unrecognizedE _ => 14
  | .unrecognizedF _ => 15

namespace Laws.EncodedOpcode

/-- The high nibble of the encoded opcode byte is the opcode of the instruction's row. -/
def Statement (i : Instr) : Prop := opField (encode i).1 = opcodeOf i

theorem load (r : Nibble) (x : Byte) : Statement (.load r x) := opField_append _ _
theorem loadi (r : Nibble) (x : Byte) : Statement (.loadi r x) := opField_append _ _
theorem store (r : Nibble) (x : Byte) : Statement (.store r x) := opField_append _ _
theorem move (h : Nibble) (l : Nibble) : Statement (.move h l) := opField_append _ _
theorem moveIllegal (r : Nibble) (h : Nibble) (l : Nibble) : Statement (.moveIllegal r h l) := opField_append _ _
theorem add (r : Nibble) (h : Nibble) (l : Nibble) : Statement (.add r h l) := opField_append _ _
theorem reserved6 (w : BitVec 12) : Statement (.reserved6 w) := opField_append _ _
theorem or (r : Nibble) (h : Nibble) (l : Nibble) : Statement (.or r h l) := opField_append _ _
theorem and (r : Nibble) (h : Nibble) (l : Nibble) : Statement (.and r h l) := opField_append _ _
theorem xor (r : Nibble) (h : Nibble) (l : Nibble) : Statement (.xor r h l) := opField_append _ _
theorem ror (r : Nibble) (l : Nibble) : Statement (.ror r l) := opField_append _ _
theorem rorIllegal (r : Nibble) (h : Nibble) (l : Nibble) : Statement (.rorIllegal r h l) := opField_append _ _
theorem beq (r : Nibble) (x : Byte) : Statement (.beq r x) := opField_append _ _
theorem halt : Statement .halt := opField_append _ _
theorem haltMalformed (r : Nibble) (x : Byte) : Statement (.haltMalformed r x) := opField_append _ _
theorem unrecognized0 (w : BitVec 12) : Statement (.unrecognized0 w) := opField_append _ _
theorem unrecognizedD (w : BitVec 12) : Statement (.unrecognizedD w) := opField_append _ _
theorem unrecognizedE (w : BitVec 12) : Statement (.unrecognizedE w) := opField_append _ _
theorem unrecognizedF (w : BitVec 12) : Statement (.unrecognizedF w) := opField_append _ _

end Laws.EncodedOpcode

end Sys2Proof
end

