-- ==== Sys2Proof/Tests/Slice0.lean ====
section
/-! SUPPORT. The model's own tests: the well-formedness checks refuse, words written out from 30_encoding.md section 2
decode, single steps give what the vectors of 95_test_vectors.md say, and every statement with hypotheses has a state and
operands that meet them. -/

namespace Sys2Proof.Tests

open Sys2Proof.Machine

/-! ## Well-formedness refuses the ill-formed terms -/

theorem test_moveIllegal_needs_reg : (Instr.moveIllegal 0 1 2).wellFormed = false := by decide
theorem test_rorIllegal_needs_hi : (Instr.rorIllegal 1 0 2).wellFormed = false := by decide
theorem test_haltMalformed_needs_field : (Instr.haltMalformed 0 0).wellFormed = false := by decide
theorem test_haltMalformed_reg_alone : (Instr.haltMalformed 1 0).wellFormed = true := by decide

/-! ## Words written out bit by bit from the encoding column of the opcode table -/

theorem test_decode_load : decode 0b00011010#8 0b11110000#8 = .load 0xA 0xF0 := by decide
theorem test_decode_loadi : decode 0b00100001#8 0b00000101#8 = .loadi 1 0x05 := by decide
theorem test_decode_store : decode 0b00110011#8 0b00100000#8 = .store 3 0x20 := by decide
theorem test_decode_move : decode 0b01000000#8 0b00010010#8 = .move 1 2 := by decide
theorem test_decode_moveIllegal : decode 0b01001111#8 0b00010010#8 = .moveIllegal 0xF 1 2 := by decide
theorem test_decode_add : decode 0b01010011#8 0b00010010#8 = .add 3 1 2 := by decide
theorem test_decode_reserved6 : decode 0b01100001#8 0b00100011#8 = .reserved6 0x123 := by decide
theorem test_decode_or : decode 0b01110101#8 0b00110100#8 = .or 5 3 4 := by decide
theorem test_decode_and : decode 0b10000011#8 0b00010010#8 = .and 3 1 2 := by decide
theorem test_decode_xor : decode 0b10010100#8 0b00010010#8 = .xor 4 1 2 := by decide
theorem test_decode_ror : decode 0b10100001#8 0b00001001#8 = .ror 1 9 := by decide
theorem test_decode_rorIllegal : decode 0b10100001#8 0b00010000#8 = .rorIllegal 1 1 0 := by decide
theorem test_decode_beq : decode 0b10110001#8 0b00001100#8 = .beq 1 0x0C := by decide
theorem test_decode_halt : decode 0b11000000#8 0b00000000#8 = .halt := by decide
theorem test_decode_haltMalformed : decode 0b11000000#8 0b00000001#8 = .haltMalformed 0 1 := by decide
theorem test_decode_unrecognized0 : decode 0b00001111#8 0b00000001#8 = .unrecognized0 0xF01 := by decide
theorem test_decode_unrecognizedD : decode 0b11010101#8 0b01010101#8 = .unrecognizedD 0x555 := by decide
theorem test_decode_unrecognizedE : decode 0b11100000#8 0b00000000#8 = .unrecognizedE 0x000 := by decide
theorem test_decode_unrecognizedF : decode 0b11110000#8 0b00000001#8 = .unrecognizedF 0x001 := by decide
theorem test_decodeTableWord_order : decodeTableWord 16 0x2105 = some (.loadi 1 0x05) := by decide
theorem test_encodeWord_order : encodeWord (.loadi 1 0x05) = 0x2105 := by decide

/-! ## The Byte Decoder (95_test_vectors.md section 2.1) -/

theorem test_decodeCell_accepts :
    ["0xAB", "0xab", "0XAB", "AB", "  0x1F  ", "\t0x7F\n", "5", "0x00FF", "007"].map (fun t => decodeCell t.toList) =
      [some 0xAB, some 0xAB, some 0xAB, some 0xAB, some 0x1F, some 0x7F, some 0x05, some 0xFF, some 0x07] := by decide
theorem test_decodeCell_rejects :
    ["", "   ", "0x", "0x100", "100", "0xG1", "0x 5", "0x0x5", "x12", "+5", "-1", "0x-1", "1 2"].map
      (fun t => decodeCell t.toList) = List.replicate 13 none := by decide
theorem test_decodeCell_unicode_space :
    decodeCell ([Char.ofNat 0xA0] ++ "0x10".toList ++ [Char.ofNat 0x3000]) = some 0x10 := by decide
theorem test_hex2 : [0x00#8, 0x05#8, 0x1F#8, 0xA0#8, 0xFF#8].map hex2 =
    ["0x00", "0x05", "0x1F", "0xA0", "0xFF"].map String.toList := by decide

/-! ## Single steps (95_test_vectors.md sections 2.2 to 2.6) -/

/-- The state of a single-step vector: Running, timer 500, with the cells, registers and counter listed. -/
def vector (pc : Byte) (regs : List (Nibble × Byte)) (cells : List (Nat × String)) : State :=
  let s := cells.foldl (fun s c => setCell s c.1 c.2.toList) { State.reset with pc := pc, execState := .running }
  regs.foldl (fun s r => writeReg s r.1 r.2) s

/-- What a vector lists of the state after one step: a register, the counter, the timer, the execution state, and the
severity, kind and address of each entry. -/
structure Seen where
  reg : Byte
  pc : Byte
  timer : Nat
  execState : ExecState
  entries : List (Severity × EntryKind × Nat)
deriving DecidableEq, Repr

/-- What one step leaves of a state, with one register shown. -/
def outcome (s : State) (q : Nibble) : Option Seen :=
  match step s with
  | .next t => some ⟨readReg t q, t.pc, t.timer.toNat, t.execState, t.log.map (fun e => (e.sev, e.kind, e.addr))⟩
  | .fault _ => none
  | .refused _ => none

/-- The text of a cell after one step. -/
def cellAfter (s : State) (a : Nat) : Option Text :=
  match step s with
  | .next t => some (cellText t a)
  | .fault _ => none
  | .refused _ => none

theorem test_load_T1 : outcome (vector 0 [] [(0, "0x11"), (1, "0x10"), (0x10, "0x12"), (0x12, "0x81")]) 1 =
    some ⟨0x81, 2, 499, .running, []⟩ := by decide
theorem test_load_T4 : outcome (vector 0 [] [(0, "0x11"), (1, "0xFF")]) 1 =
    some ⟨0x11, 2, 499, .running, [(.error, .decodeError, 255)]⟩ := by decide
theorem test_loadi_S6 : outcome (vector 0 [] [(0, "0x21"), (1, "0x05")]) 1 = some ⟨5, 2, 499, .running, []⟩ := by decide
theorem test_loadi_C1_wraps : outcome (vector 254 [(0, 7)] [(254, "0x20")]) 0 =
    some ⟨0, 0, 499, .running, [(.error, .decodeError, 255)]⟩ := by decide
theorem test_store_T9 : cellAfter (vector 0 [(3, 0x1F)] [(0, "0x33"), (1, "0x20"), (0x20, "junk")]) 0x20 =
    some "0x1F".toList := by decide
theorem test_store_T11 : outcome (vector 0 [(3, 9)] [(0, "0x33"), (1, "0xFF")]) 3 =
    some ⟨9, 2, 499, .running, [(.error, .storeOutOfRange, 255)]⟩ := by decide
theorem test_move_T13 : outcome (vector 0 [(1, 7)] [(0, "0x40"), (1, "0x12")]) 2 = some ⟨7, 2, 499, .running, []⟩ := by
  decide
theorem test_moveIllegal_T14 : outcome (vector 0 [(1, 7)] [(0, "0x4F"), (1, "0x12")]) 2 =
    some ⟨0, 0, 500, .stopped, [(.error, .moveForm, 0)]⟩ := by decide
theorem test_add_A6 : outcome (vector 0 [(1, 0x10), (2, 0x20)] [(0, "0x51"), (1, "0x12")]) 1 =
    some ⟨0x30, 2, 499, .running, []⟩ := by decide
theorem test_add_A3_overflow : outcome (vector 0 [(1, 0xFF), (2, 1), (3, 0x44)] [(0, "0x53"), (1, "0x12")]) 3 =
    some ⟨0x44, 0, 500, .stopped, [(.error, .addOverflow, 0)]⟩ := by decide
theorem test_or_A8 : outcome (vector 0 [(3, 0x08), (4, 0x17)] [(0, "0x75"), (1, "0x34")]) 5 =
    some ⟨0x1F, 2, 499, .running, []⟩ := by decide
theorem test_and_A10 : outcome (vector 0 [(1, 0x18), (2, 0x0F)] [(0, "0x83"), (1, "0x12")]) 3 =
    some ⟨0x08, 2, 499, .running, []⟩ := by decide
theorem test_xor_A12 : outcome (vector 0 [(1, 0x18), (2, 0x0F)] [(0, "0x94"), (1, "0x12")]) 4 =
    some ⟨0x17, 2, 499, .running, []⟩ := by decide
theorem test_ror_A19 : outcome (vector 0 [(1, 0x81)] [(0, "0xA1"), (1, "0x09")]) 1 =
    some ⟨0xC0, 2, 499, .running, []⟩ := by decide
theorem test_ror_A23_blank_operand : outcome (vector 0 [(1, 0x81)] [(0, "0xA1")]) 1 =
    some ⟨0x81, 2, 499, .running, [(.error, .decodeError, 1)]⟩ := by decide
theorem test_rorIllegal_A22 : outcome (vector 0 [(1, 0x81)] [(0, "0xA1"), (1, "0x10")]) 1 =
    some ⟨0x81, 0, 500, .stopped, [(.error, .rotateForm, 0)]⟩ := by decide
theorem test_beq_B1_taken : outcome (vector 6 [(0, 3), (1, 3)] [(6, "0xB1"), (7, "0x0C")]) 1 =
    some ⟨3, 0x0C, 499, .running, []⟩ := by decide
theorem test_beq_B2_untaken : outcome (vector 6 [(0, 3), (1, 4)] [(6, "0xB1"), (7, "0x0C")]) 1 =
    some ⟨4, 0x08, 499, .running, []⟩ := by decide
theorem test_halt_B7 : outcome (vector 0 [] [(0, "0xC0"), (1, "0x00")]) 0 = some ⟨0, 0, 500, .stopped, []⟩ := by decide
theorem test_haltMalformed_B9 : outcome (vector 0 [] [(0, "0xC0"), (1, "0x01")]) 0 =
    some ⟨0, 0, 500, .stopped, [(.error, .haltForm, 0)]⟩ := by decide
theorem test_reserved6_R1 : outcome (vector 4 [] [(4, "0x60"), (5, "0x00")]) 0 =
    some ⟨0, 4, 500, .stopped, [(.error, .reserved6, 4)]⟩ := by decide
theorem test_unrecognized0_R6_blank : outcome (vector 0 [] []) 0 =
    some ⟨0, 0, 500, .stopped, [(.error, .decodeError, 0), (.error, .decodeError, 1), (.error, .unrecognized, 0)]⟩ := by
  decide
theorem test_unrecognized0_R3_counter255 : outcome (vector 255 [] []) 0 =
    some ⟨0, 255, 500, .stopped, [(.error, .decodeError, 255), (.error, .decodeError, 256), (.error, .unrecognized, 255)]⟩ := by
  decide
theorem test_unrecognizedD_R2 : outcome (vector 0 [] [(0, "0xD5"), (1, "0x55")]) 0 =
    some ⟨0, 0, 500, .stopped, [(.error, .unrecognized, 0)]⟩ := by decide
theorem test_unrecognizedE_R7 : outcome (vector 0 [] [(0, "0xE0"), (1, "0x00")]) 0 =
    some ⟨0, 0, 500, .stopped, [(.error, .unrecognized, 0)]⟩ := by decide
theorem test_unrecognizedF_R7 : outcome (vector 0 [] [(0, "0xF0"), (1, "0x00")]) 0 =
    some ⟨0, 0, 500, .stopped, [(.error, .unrecognized, 0)]⟩ := by decide
theorem test_withFetchWord_runs_first : outcome (State.reset.withFetchWord 16 0x2105) 1 =
    some ⟨5, 2, 499, .stopped, []⟩ := by decide

/-! ## The host (95_test_vectors.md section 3) -/

theorem test_host_view_of_reset :
    (hostView State.reset).cells.length = 255 ∧ (hostView State.reset).registers.length = 16 ∧
      (hostView State.reset).timer = 500 := by simp [hostView, memCells, State.reset, timerReset]
theorem test_host_H7_H8_H9 :
    afterSchedule [.setTimer 1501, .setCounter 256, .editCell 255 "0x00".toList, .tick] State.reset = State.reset := by
  decide
theorem test_host_H10_edit : cellText (afterCommand (.editCell 7 "hello".toList) State.reset) 7 = "hello".toList := by
  decide
theorem test_edit_to_blank_unlists :
    (afterSchedule [.editCell 7 "hello".toList, .editCell 3 "x".toList, .editCell 7 []] State.reset).mem =
      [(3, "x".toList)] := by decide
theorem test_kind_codes_R110 :
    [EntryKind.decodeError, .storeOutOfRange, .moveForm, .addOverflow, .reserved6, .rotateForm, .haltForm, .unrecognized,
      .runStart].map kindCode = [1, 2, 3, 4, 5, 6, 7, 8, 9] := by decide

/-! ## Witnesses: for each statement with hypotheses, a state and operands that meet them all -/

theorem witness_DecodeOfEncodeIsIdentity :
    (Instr.moveIllegal 1 2 3).wellFormed = true ∧ (Instr.rorIllegal 1 2 3).wellFormed = true ∧
      (Instr.haltMalformed 0 1).wellFormed = true ∧ Instr.halt.wellFormed = true := by decide

theorem witness_FailedReadGivesZeroAndOneEntry :
    decodeCell (cellText (vector 0 [] []) 254) = none ∧
      decodeCell (cellText (vector 0 [] [(254, "0x07")]) 254) = some 7 := by decide

theorem witness_OutOfRangeReadIsSoftFailure : 255 ≤ 255 ∧ 255 ≤ 256 := by decide

theorem witness_StoreWritesCanonicalText : (0x00 : Byte).toNat ≤ 254 ∧ (0xFE : Byte).toNat ≤ 254 := by decide

theorem witness_StoreThenIndirectLoadRoundTrips :
    (0x20 : Byte).toNat ≤ 254 ∧ ∃ t, exec (.store 1 0x20) (vector 0 [(1, 0x5A)] [(0x30, "0x20")]) = .next t ∧
      cellByte t (0x30 : Byte).toNat = some 0x20 := by
  refine ⟨by decide, _, rfl, ?_⟩
  decide

theorem witness_MoveCopiesOrStopsOnForm : (1 : Nibble) ≠ 0 ∧ (0xF : Nibble) ≠ 0 := by decide

theorem witness_AddIsCheckedUnsignedSum :
    (readReg (vector 0 [(1, 0xFF)] []) 1).toNat + (readReg (vector 0 [(1, 0xFF)] []) 2).toNat ≤ 255 ∧
      (readReg (vector 0 [(1, 0xFF), (2, 1)] []) 1).toNat + (readReg (vector 0 [(1, 0xFF), (2, 1)] []) 2).toNat > 255 := by
  decide

theorem witness_RorRotatesOrStopsOnForm : (1 : Nibble) ≠ 0 ∧ (0xF : Nibble) ≠ 0 ∧ (0 : Nat) < 8 ∧ (7 : Nat) < 8 := by
  decide

theorem witness_TakenBranchLoadsCounter :
    readReg (vector 6 [(0, 3), (1, 3)] []) 1 = readReg (vector 6 [(0, 3), (1, 3)] []) 0 := by decide

theorem witness_UntakenBranchAdvances :
    readReg (vector 254 [(0, 3), (1, 4)] []) 1 ≠ readReg (vector 254 [(0, 3), (1, 4)] []) 0 := by decide

theorem witness_HaltStopsInPlace :
    ((1 : Nibble) ≠ 0 ∨ (0 : Byte) ≠ 0) ∧ ((0 : Nibble) ≠ 0 ∨ (1 : Byte) ≠ 0) := by decide

theorem witness_MalformedHaltHaltsWithOneEntry :
    ((0xF : Nibble) ≠ 0 ∨ (0 : Byte) ≠ 0) ∧ ((0 : Nibble) ≠ 0 ∨ (0xFF : Byte) ≠ 0) := by decide

theorem witness_OpcodeSixAlwaysStops : (0x60 : Byte).toNat / 16 = 6 ∧ (0x6F : Byte).toNat / 16 = 6 := by decide

theorem witness_UnrecognizedOpcodesAlwaysStop :
    (0x0F : Byte).toNat / 16 = 0 ∧ (0xD0 : Byte).toNat / 16 = 13 ∧ (0xEF : Byte).toNat / 16 = 14 ∧
      (0xFF : Byte).toNat / 16 = 15 := by decide

theorem witness_IllegalEncodingsStopTheMachine :
    illegalKind 0x00 0x00 = some .unrecognized ∧ illegalKind 0x41 0x00 = some .moveForm ∧
      illegalKind 0x60 0x00 = some .reserved6 ∧ illegalKind 0xA0 0x10 = some .rotateForm ∧
      illegalKind 0xD0 0x00 = some .unrecognized ∧ illegalKind 0xFF 0xFF = some .unrecognized ∧
      illegalKind 0xC1 0x00 = none ∧ illegalKind 0x40 0xFF = none ∧ illegalKind 0xA1 0x0F = none := by decide

theorem witness_StepRunsDecodedInstruction :
    (Instr.loadi 1 5).wellFormed = true ∧ cellByte (vector 253 [] [(253, "0x21"), (254, "5")]) 253 = some 0x21 ∧
      cellByte (vector 253 [] [(253, "0x21"), (254, "5")]) (253 + 1) = some 0x05 ∧
      decode 0x21 0x05 = .loadi 1 5 := by decide

theorem witness_PlacedWordIsTheNextInstruction :
    (Instr.rorIllegal 1 2 3).wellFormed = true ∧ (placingCounter (vector 253 [] [])) = 253 ∧
      (placingCounter (vector 254 [] [])) = 0 := by decide

theorem witness_StepStopsExactlyWhenSpecified :
    stopsOn (vector 0 [] []) 0xC0 0x00 ∧ stopsOn (vector 0 [(1, 0x80)] []) 0x53 0x11 ∧
      ¬ stopsOn (vector 0 [(1, 0x7F)] []) 0x53 0x11 ∧ takenOn (vector 0 [] []) 0xB5 ∧
      ¬ takenOn (vector 0 [(5, 1)] []) 0xB5 ∧ ¬ stopsOn (vector 0 [] []) 0xB5 0x00 := by decide

theorem witness_StepAppendsAtMostFourErrors :
    ∃ t, step (vector 254 [] [(254, "0x10")]) = .next t := ⟨_, rfl⟩

theorem witness_OnlyStoreWritesMemory :
    (∃ t, step (vector 0 [] [(0, "0x33"), (1, "0xFE")]) = .next t) ∧
      (fetchedOpcode (vector 0 [] [(0, "0x33"), (1, "0xFE")])).toNat / 16 = 3 ∧
      (fetchedOpcode (vector 0 [] [])).toNat / 16 ≠ 3 ∧ (vector 0 [] [(254, "x")]).mem.wf ∧ 254 ≤ 254 := by
  exact ⟨⟨_, rfl⟩, by decide⟩

theorem witness_OnlyTheNamedRegisterChanges :
    (∃ t, step (vector 0 [] [(0, "0x40"), (1, "0x12")]) = .next t) ∧
      writtenRegister 0x40 0x12 = some 2 ∧ writtenRegister 0x40 0x12 ≠ some 1 ∧ writtenRegister 0xC0 0x00 ≠ some 0 := by
  exact ⟨⟨_, rfl⟩, by decide⟩

theorem witness_StepIgnoresExecutionState :
    ∃ t, step (vector 0 [] [(0, "0xC0"), (1, "0x00")]) = .next t ∧ t.execState = .stopped := ⟨_, rfl, by decide⟩

theorem witness_TimerHasNoEffectOnSteps :
    ∃ t, step (vector 0 [] [(0, "0xB0"), (1, "0x00")]) = .next t ∧ t.timer.toNat = 499 := ⟨_, rfl, by decide⟩

theorem witness_UnreadCellsHaveNoEffect :
    (2 ∉ cellsRead (vector 0 [] [(0, "0x11"), (1, "0x10"), (0x10, "0x12")])) ∧
      (0x12 ∈ cellsRead (vector 0 [] [(0, "0x11"), (1, "0x10"), (0x10, "0x12")])) ∧
      ∃ t, step (vector 0 [] [(0, "0x11"), (1, "0x10"), (0x10, "0x12")]) = .next t := by
  exact ⟨by decide, by decide, _, rfl⟩

theorem witness_CounterWrapsAtTopOfMemory :
    (∃ t, step (vector 254 [] [(254, "0x20")]) = .next t) ∧ (vector 254 [] [(254, "0x20")]).pc = 254 ∧
      ¬ stopsOn (vector 254 [] [(254, "0x20")]) (fetchedOpcode (vector 254 [] [(254, "0x20")])) 0 ∧
      ¬ takenOn (vector 254 [] [(254, "0x20")]) (fetchedOpcode (vector 254 [] [(254, "0x20")])) := by
  exact ⟨⟨_, rfl⟩, by decide⟩

theorem witness_UndecodableOpcodeCellStops :
    cellByte (vector 7 [] [(7, "0xZZ"), (8, "0x12")]) (vector 7 [] [(7, "0xZZ"), (8, "0x12")]).pc.toNat = none ∧
      (vector 255 [] []).pc = 255 := by decide

theorem witness_LogOnlyGrowsUntilReset :
    (∃ t, step { vector 0 [] [] with dirty := true } = .next t ∧ t.log.length = 3) ∧
      (∃ t, hostCommand (.setTimer 1500) { vector 0 [] [] with dirty := true } = .next t) ∧
      ∃ t, hostCommand .tick { vector 0 [] [] with dirty := true } = .next t :=
  ⟨⟨_, rfl, by decide⟩, ⟨_, rfl⟩, ⟨_, rfl⟩⟩

theorem witness_OnlyRunStartsTheMachine :
    (∃ t, step (vector 0 [] []) = .next t) ∧ (vector 0 [] []).execState = .running ∧
      State.reset.execState = .stopped ∧
      ∃ t, hostCommand .softReset (vector 0 [] []) = .next t ∧ t.execState = .running :=
  ⟨⟨_, rfl⟩, by decide, by decide, _, rfl, by decide⟩

theorem witness_FatalPathLogsOnceAndStops :
    ∃ t, (vector 0 [(1, 0x80)] []).execState = .running ∧
      exec (.add 3 1 1) (vector 0 [(1, 0x80)] []) = .next t ∧ t.execState = .stopped :=
  ⟨_, by decide, rfl, by decide⟩

theorem witness_HostWritesAreRangeChecked :
    0 ≤ 1500 ∧ 1500 ≤ 1500 ∧ 1500 < 1501 ∧ 255 ≤ 255 ∧ 255 < 256 ∧ 254 ≤ 254 ∧ 254 < 255 := by decide

theorem witness_HostEditsStoreAnyTextSilently :
    (vector 0 [] [(254, "junk")]).mem.wf ∧ 254 ≤ 254 ∧
      (∃ t, hostCommand (.setTimer 1500) (vector 0 [] []) = .next t) ∧
      ∃ t, hostCommand (.setCounter 255) (vector 0 [] []) = .next t := ⟨by decide, by decide, ⟨_, rfl⟩, _, rfl⟩

theorem witness_DebugStepRunsExactlyOneStep :
    ∃ t, hostCommand .debugStep (vector 0 [] []) = .next t ∧ t.execState ≠ (vector 0 [] []).execState :=
  ⟨_, rfl, by decide⟩

/-- A state that meets the invariant with a cell listed and an entry in the log. -/
theorem witness_EveryStepKeepsInvariant :
    Inv (runCommand (vector 0 [(1, 9)] [(0, "0x21"), (254, "junk")])) ∧
      ∃ t, step (runCommand (vector 0 [(1, 9)] [(0, "0x21"), (254, "junk")])) = .next t := by
  refine ⟨⟨by decide, by decide, ?_⟩, _, rfl⟩
  intro e he
  rw [runCommand_log, List.mem_singleton] at he
  subst he
  exact ⟨rfl, rfl, by decide⟩

theorem witness_EveryScheduleKeepsInvariant : Inv State.reset := ⟨by decide, by decide, fun _ h => by cases h⟩

theorem witness_TimerAfterRunningTicks :
    (vector 0 [] [(0, "0xB0"), (1, "0x00")]).execState = .running ∧
      ∃ t, runningTicks 2 (vector 0 [] [(0, "0xB0"), (1, "0x00")]) t :=
  ⟨by decide, _, _, rfl, by decide, _, rfl, by decide, rfl⟩

theorem witness_RunEndsAtStoppingInstruction :
    ∃ u t, runEndsIn (vector 0 [] [(0, "0xC0"), (1, "0x00")]) t ∧
      runFor 0 (runCommand (vector 0 [] [(0, "0xC0"), (1, "0x00")])) = u ∧ u.execState = .running ∧
      stopsOn u (fetchedOpcode u) (fetchedOperand u) ∧ step u = .next t :=
  ⟨_, _, ⟨1, rfl, by decide⟩, rfl, by decide, by decide, rfl⟩

theorem witness_RunAfterHaltStopsAtOnce :
    cellByte (vector 8 [] [(8, "0xC0"), (9, "0x00")]) (vector 8 [] [(8, "0xC0"), (9, "0x00")]).pc.toNat = some 0xC0 ∧
      cellByte (vector 8 [] [(8, "0xC0"), (9, "0x00")]) ((vector 8 [] [(8, "0xC0"), (9, "0x00")]).pc.toNat + 1) = some 0x00 := by
  decide

end Sys2Proof.Tests
end

section
/-! The family of the execution state (10_state.md R22). Every instruction is a rule that is run and committed, so one
equation over the rules says how a step sets the execution state, and the host's commands follow. -/

namespace Sys2Proof.Machine

/-! ## An instruction is its rule, run and committed -/

/-- The rule of each instruction: what its arm of `exec` runs and commits (`exec_eq_runRule`). -/
def ruleOf : Instr → State → Ruled
  | .load reg xy => loadRule reg xy
  | .loadi reg xy => loadiRule reg xy
  | .store reg xy => storeRule reg xy
  | .move hi lo => moveRule 0 hi lo
  | .moveIllegal reg hi lo => moveRule reg hi lo
  | .add reg hi lo => addRule reg hi lo
  | .reserved6 _ => reserved6Rule
  | .or reg hi lo => orRule reg hi lo
  | .and reg hi lo => andRule reg hi lo
  | .xor reg hi lo => xorRule reg hi lo
  | .ror reg lo => rorRule reg 0 lo
  | .rorIllegal reg hi lo => rorRule reg hi lo
  | .beq reg xy => beqRule reg xy
  | .halt => haltRule 0 0
  | .haltMalformed reg xy => haltRule reg xy
  | .unrecognized0 _ => unrecognizedRule
  | .unrecognizedD _ => unrecognizedRule
  | .unrecognizedE _ => unrecognizedRule
  | .unrecognizedF _ => unrecognizedRule

theorem exec_eq_runRule (i : Instr) (s : State) : exec i s = runRule (ruleOf i) s := by
  cases i <;> rfl

/-- The step always answers a next state: the commit of the fetched instruction's rule, run after the fetch. -/
theorem step_eq_commit (s : State) :
    step s = .next (commit s.pc (ruleOf (decode (fetchedOpcode s) (fetchedOperand s)) (afterFetch s))) := by
  have hpc : (afterFetch s).pc = s.pc := rfl
  rw [step, fetch_eq, exec_eq_runRule, runRule_eq, hpc]

/-! ## The execution state under the shared operations -/

@[simp] theorem withEntries_execState (s : State) (es : List LogEntry) :
    (withEntries s es).execState = s.execState := rfl

@[simp] theorem afterFetch_execState (s : State) : (afterFetch s).execState = s.execState := rfl

@[simp] theorem memRead_execState (a : Nat) (s : State) : (memRead a s).2.execState = s.execState := by
  rw [memRead_eq, withEntries_execState]

@[simp] theorem indirectOperand_execState (xy : Byte) (s : State) :
    (indirectOperand xy s).2.execState = s.execState := by
  simp only [indirectOperand, memRead_execState]

@[simp] theorem memWrite_execState (a : Nat) (v : Byte) (s : State) :
    (memWrite a v s).execState = s.execState := by
  by_cases ha : a < memCells
  · rw [memWrite_of_lt a v s ha, setCell_execState]
  · rw [memWrite_of_ge a v s (Nat.le_of_not_lt ha), withEntries_execState]

/-- The commit leaves the execution state to the rule (40_step_cycle.md R73 to R76). -/
@[simp] theorem commit_execState (pc0 : Byte) (r : Ruled) : (commit pc0 r).execState = r.state.execState := by
  obtain ⟨outcome, s⟩ := r
  cases outcome <;> rfl

/-! ## The execution state under the rules -/

/-- What a rule run on `s` makes of the execution state: Stopped where its outcome is `stop`, that of `s` otherwise. -/
def StopsOrKeeps (s : State) (r : Ruled) : Prop :=
  r.state.execState = if r.outcome = .stop then .stopped else s.execState

theorem stopsOrKeeps_next {s t : State} (h : t.execState = s.execState) : StopsOrKeeps s ⟨.next, t⟩ := h

theorem stopsOrKeeps_taken (s : State) (target : Byte) : StopsOrKeeps s ⟨.taken target, s⟩ := rfl

theorem stopsOrKeeps_stop (s t : State) : StopsOrKeeps s ⟨.stop, stopMachine t⟩ := rfl

theorem stopsOrKeeps_raiseFatal (s : State) (kind : EntryKind) : StopsOrKeeps s (raiseFatal kind s) :=
  stopsOrKeeps_stop s _

/-- A rule with a fatal case and a completing one. -/
theorem stopsOrKeeps_fatal_or_next {s t : State} (bad : Bool) (kind : EntryKind) (h : t.execState = s.execState) :
    StopsOrKeeps s (if bad then raiseFatal kind s else ⟨.next, t⟩) := by
  split
  · exact stopsOrKeeps_raiseFatal s kind
  · exact stopsOrKeeps_next h

theorem moveRule_stopsOrKeeps (reg hi lo : Nibble) (s : State) : StopsOrKeeps s (moveRule reg hi lo s) :=
  stopsOrKeeps_fatal_or_next _ _ (writeReg_execState ..)

theorem addRule_stopsOrKeeps (reg hi lo : Nibble) (s : State) : StopsOrKeeps s (addRule reg hi lo s) :=
  stopsOrKeeps_fatal_or_next _ _ (writeReg_execState ..)

theorem rorRule_stopsOrKeeps (reg hi lo : Nibble) (s : State) : StopsOrKeeps s (rorRule reg hi lo s) :=
  stopsOrKeeps_fatal_or_next _ _ (writeReg_execState ..)

theorem loadRule_stopsOrKeeps (reg : Nibble) (xy : Byte) (s : State) : StopsOrKeeps s (loadRule reg xy s) :=
  stopsOrKeeps_next (indirectOperand_execState xy s)

theorem storeRule_stopsOrKeeps (reg : Nibble) (xy : Byte) (s : State) : StopsOrKeeps s (storeRule reg xy s) :=
  stopsOrKeeps_next (memWrite_execState ..)

theorem beqRule_stopsOrKeeps (reg : Nibble) (xy : Byte) (s : State) : StopsOrKeeps s (beqRule reg xy s) := by
  unfold beqRule
  split
  · exact stopsOrKeeps_taken s xy
  · exact stopsOrKeeps_next rfl

theorem haltRule_stopsOrKeeps (reg : Nibble) (xy : Byte) (s : State) : StopsOrKeeps s (haltRule reg xy s) :=
  stopsOrKeeps_stop s _

/-- Instructions only ever set the execution state to Stopped, and exactly those that end in `stop` do (10_state.md R22,
40_step_cycle.md R72). -/
theorem ruleOf_stopsOrKeeps (i : Instr) (s : State) : StopsOrKeeps s (ruleOf i s) := by
  cases i with
  | load reg xy => exact loadRule_stopsOrKeeps reg xy s
  | store reg xy => exact storeRule_stopsOrKeeps reg xy s
  | move hi lo => exact moveRule_stopsOrKeeps 0 hi lo s
  | moveIllegal reg hi lo => exact moveRule_stopsOrKeeps reg hi lo s
  | add reg hi lo => exact addRule_stopsOrKeeps reg hi lo s
  | ror reg lo => exact rorRule_stopsOrKeeps reg 0 lo s
  | rorIllegal reg hi lo => exact rorRule_stopsOrKeeps reg hi lo s
  | beq reg xy => exact beqRule_stopsOrKeeps reg xy s
  | halt => exact haltRule_stopsOrKeeps 0 0 s
  | haltMalformed reg xy => exact haltRule_stopsOrKeeps reg xy s
  | loadi | or | and | xor => exact stopsOrKeeps_next (writeReg_execState ..)
  | reserved6 | unrecognized0 | unrecognizedD | unrecognizedE | unrecognizedF => exact stopsOrKeeps_raiseFatal s _

/-! ## The execution state under a step and a host command -/

/-- The step sets the execution state to Stopped where the fetched instruction's rule ends in `stop`, and keeps it
otherwise. -/
theorem step_execState {s t : State} (h : step s = .next t) :
    t.execState =
      if (ruleOf (decode (fetchedOpcode s) (fetchedOperand s)) (afterFetch s)).outcome = .stop then .stopped
      else s.execState := by
  rw [step_eq_commit] at h
  cases h
  rw [commit_execState, ← afterFetch_execState s]
  exact ruleOf_stopsOrKeeps _ _

theorem step_execState_kept_or_stopped {s t : State} (h : step s = .next t) :
    t.execState = s.execState ∨ t.execState = .stopped := by
  rw [step_execState h]
  split
  · exact .inr rfl
  · exact .inl rfl

theorem hostCommand_tick_of_running {s : State} (h : s.execState = .running) : hostCommand .tick s = step s := by
  simp only [hostCommand, h]

theorem hostCommand_tick_of_stopped {s : State} (h : s.execState = .stopped) :
    hostCommand .tick s = .refused .tickWhileStopped := by
  simp only [hostCommand, h]

/-- No host command but run sets the execution state to anything but Stopped (10_state.md R22). -/
theorem hostCommand_execState_kept_or_stopped {c : HostCommand} {s t : State} (hc : c ≠ .run)
    (h : hostCommand c s = .next t) : t.execState = s.execState ∨ t.execState = .stopped := by
  cases c with
  | run => exact absurd rfl hc
  | debugStep => exact step_execState_kept_or_stopped h
  | tick =>
    cases hs : s.execState with
    | running =>
      rw [hostCommand_tick_of_running hs] at h
      exact hs ▸ step_execState_kept_or_stopped h
    | stopped =>
      rw [hostCommand_tick_of_stopped hs] at h
      cases h
  | editCell | setTimer | setCounter =>
    simp only [hostCommand] at h
    split at h
    · cases h
      exact .inl rfl
    · cases h
  | softReset | clearDirty =>
    cases h
    exact .inl rfl
  | fullReset | forceStop =>
    cases h
    exact .inr rfl

/-- Settles O44: a step and every host command but run keep the execution state or set Stopped, by the case split over
the instructions' rules (`ruleOf_stopsOrKeeps`) and over the commands. -/
theorem onlyRunStartsTheMachine : Obligations.OnlyRunStartsTheMachine := by
  unfold Obligations.OnlyRunStartsTheMachine
  refine ⟨rfl, fun _ _ => step_execState_kept_or_stopped, fun s => ⟨?run, ?fullReset, ?forceStop,
    hostCommand_tick_of_running, ?tickStopped, ?onlyRun⟩⟩
  case run => exact ⟨_, rfl, runCommand_execState s⟩
  case fullReset => exact ⟨_, rfl, fullReset_execState s⟩
  case forceStop => exact ⟨_, rfl, rfl⟩
  case tickStopped =>
    intro hs t h
    rw [hostCommand_tick_of_stopped hs] at h
    cases h
  case onlyRun =>
    intro c t hc h ht
    obtain hkept | hstopped := hostCommand_execState_kept_or_stopped hc h
    · rw [← hkept, ht]
    · rw [hstopped] at ht
      cases ht

end Sys2Proof.Machine
end

section
/-! The family of the memory (20_memory.md). What a read and a write of a cell answer, how a STORE completes, and that the
opcode fetched decides whether the step may write a cell at all. -/

namespace Sys2Proof.Machine

/-! ## The opcode of a decoded instruction -/

theorem opField_toNat (b : Byte) : (opField b).toNat = b.toNat / 16 := by
  obtain ⟨o, r, rfl⟩ := byte_eq_nibbles b
  rw [opField_append, nibbles_div]

theorem regField_toNat (b : Byte) : (regField b).toNat = b.toNat % 16 := by
  obtain ⟨o, r, rfl⟩ := byte_eq_nibbles b
  rw [regField_append, nibbles_mod]

theorem nibble_eq_ofNat_bits : ∀ o : Nibble,
    o = BitVec.ofNat 4 (o[3].toNat * 8 + o[2].toNat * 4 + o[1].toNat * 2 + o[0].toNat) := by
  decide

/-- Two bytes decode to an instruction in the row of the opcode map that the opcode nibble names (30_encoding.md R59). -/
theorem opcodeOf_decode (b1 b2 : Byte) : Laws.opcodeOf (decode b1 b2) = opField b1 := by
  obtain ⟨o, r, rfl⟩ := byte_eq_nibbles b1
  rw [decode_append, opField_append]
  split
  all_goals
    rename_i h3 h2 h1 h0
    rw [nibble_eq_ofNat_bits o, h3, h2, h1, h0]
  case h_5 | h_11 | h_13 => split <;> rfl
  all_goals rfl

/-- Opcode 3 is STORE, with the whole operand byte as its address field. -/
theorem decode_of_opcode_three {b1 : Byte} (b2 : Byte) (h : b1.toNat / 16 = 3) :
    decode b1 b2 = .store (regField b1) b2 := by
  obtain ⟨o, r, rfl⟩ := byte_eq_nibbles b1
  obtain rfl : o = 3 := BitVec.eq_of_toNat_eq ((nibbles_div o r).symm.trans h)
  rw [decode_append, regField_append]
  rfl

/-! ## Reads of a cell -/

theorem cellByte_of_lt {a : Nat} (s : State) (h : a < memCells) : cellByte s a = decodeCell (cellText s a) :=
  if_neg (Nat.not_le.mpr h)

theorem memRead_of_none {a : Nat} {s : State} (h : cellByte s a = none) :
    memRead a s = (0, appendLog .error .decodeError a s) := by
  simp only [memRead, h]

theorem memRead_of_some {a : Nat} {s : State} {v : Byte} (h : cellByte s a = some v) : memRead a s = (v, s) := by
  simp only [memRead, h]

/-- Settles O8, by the two answers of the decoder on the cell's text. -/
theorem failedReadGivesZeroAndOneEntry : Obligations.FailedReadGivesZeroAndOneEntry := by
  unfold Obligations.FailedReadGivesZeroAndOneEntry
  intro s a ha
  have hcell : cellByte s a = decodeCell (cellText s a) := cellByte_of_lt s (Nat.lt_succ_of_le ha)
  refine ⟨fun hnone => ?_, fun v hsome => ?_⟩
  · rw [memRead_of_none (hcell.trans hnone)]
    rfl
  · exact memRead_of_some (hcell.trans hsome)

/-! ## The canonical text -/

/-- The uppercase hexadecimal digit of a number below 16, as the spec lists the digits (20_memory.md R37). -/
def upperHexDigit (d : Nat) : Char := ("0123456789ABCDEF".toList).getD d '?'

theorem hexChar_eq_upperHexDigit : ∀ d : Nibble, hexChar d = upperHexDigit d.toNat := by decide

theorem hex2_eq_upperHexDigits (v : Byte) :
    hex2 v = ['0', 'x', upperHexDigit (v.toNat / 16), upperHexDigit (v.toNat % 16)] := by
  rw [← opField_toNat, ← regField_toNat, ← hexChar_eq_upperHexDigit, ← hexChar_eq_upperHexDigit]
  rfl

/-! ## The completion of a rule, and of STORE -/

theorem advancedByTwo_commit_next (s u : State) : advancedByTwo s (commit s.pc ⟨.next, u⟩) := by
  intro h
  rw [commit_next, timerTick_pc, setPc_pc, pcAdvance_toNat, Nat.mod_eq_of_lt h]

theorem ticked_commit_next {s u : State} (h : u.timer = s.timer) : ticked s (commit s.pc ⟨.next, u⟩) := by
  rw [ticked, commit_next, timerTick_toNat, setPc_timer, h]

/-- STORE to a cell that exists: the one cell is replaced, and the rule completes (41_data_transfer.md R83). -/
theorem storeRule_of_lt (reg : Nibble) {xy : Byte} (s : State) (h : directAddr xy < memCells) :
    storeRule reg xy s = ⟨.next, setCell s (directAddr xy) (hex2 (readReg s reg))⟩ := by
  rw [storeRule, memWrite_of_lt _ _ _ h]

/-- Settles O12: the state STORE answers is the commit of `setCell`, and each clause is a law of one of the two. -/
theorem storeWritesCanonicalText : Obligations.StoreWritesCanonicalText := by
  unfold Obligations.StoreWritesCanonicalText
  intro reg xy s hxy v digit
  refine ⟨commit s.pc ⟨.next, setCell s (directAddr xy) (hex2 v)⟩, ?exec, ?written, ?others, ?registers, ?control,
    advancedByTwo_commit_next s _, ticked_commit_next (setCell_timer ..)⟩
  case exec => rw [exec_eq_runRule, runRule_eq, ruleOf, storeRule_of_lt reg s (Nat.lt_succ_of_le hxy)]
  case written =>
    rw [commit_next, cellText_timerTick, cellText_setPc, cellText_setCell_self _ _ _ (hex2_ne_blank v)]
    exact hex2_eq_upperHexDigits v
  case others =>
    intro a ha
    rw [commit_next, cellText_timerTick, cellText_setPc, cellText_setCell_other _ _ _ _ ha]
  case registers =>
    intro q
    rw [commit_next, readReg_timerTick, readReg_setPc, readReg_setCell]
  case control => exact ⟨rfl, rfl, rfl⟩

/-! ## The memory under the rules -/

@[simp] theorem commit_mem (pc0 : Byte) (r : Ruled) : (commit pc0 r).mem = r.state.mem := by
  obtain ⟨outcome, s⟩ := r
  cases outcome <;> rfl

@[simp] theorem afterFetch_mem (s : State) : (afterFetch s).mem = s.mem := rfl

@[simp] theorem indirectOperand_mem (xy : Byte) (s : State) : (indirectOperand xy s).2.mem = s.mem := by
  simp only [indirectOperand, memRead_mem]

@[simp] theorem raiseFatal_mem (kind : EntryKind) (s : State) : (raiseFatal kind s).state.mem = s.mem := rfl

/-- A rule with a fatal case and a completing one. -/
theorem fatal_or_next_mem {s t : State} (bad : Bool) (kind : EntryKind) (h : t.mem = s.mem) :
    (if bad then raiseFatal kind s else ⟨.next, t⟩ : Ruled).state.mem = s.mem := by
  split
  · exact raiseFatal_mem kind s
  · exact h

theorem beqRule_mem (reg : Nibble) (xy : Byte) (s : State) : (beqRule reg xy s).state.mem = s.mem := by
  unfold beqRule
  split <;> rfl

theorem haltRule_mem (reg : Nibble) (xy : Byte) (s : State) : (haltRule reg xy s).state.mem = s.mem := by
  rw [haltRule, stopMachine_mem]
  split <;> rfl

/-- No rule but STORE's writes memory (20_memory.md R44). -/
theorem ruleOf_mem (i : Instr) (s : State) (h : Laws.opcodeOf i ≠ 3) : (ruleOf i s).state.mem = s.mem := by
  cases i with
  | store => exact absurd rfl h
  | load reg xy => exact indirectOperand_mem xy s
  | move | moveIllegal | add | ror | rorIllegal => exact fatal_or_next_mem _ _ rfl
  | beq reg xy => exact beqRule_mem reg xy s
  | halt => exact haltRule_mem 0 0 s
  | haltMalformed reg xy => exact haltRule_mem reg xy s
  | loadi | or | and | xor => exact writeReg_mem ..
  | reserved6 | unrecognized0 | unrecognizedD | unrecognizedE | unrecognizedF => exact raiseFatal_mem _ s

/-- A write changes no other cell, dropped or not (20_memory.md R43). -/
theorem cellText_memWrite_other {a c : Nat} (v : Byte) (s : State) (h : c ≠ a) :
    cellText (memWrite a v s) c = cellText s c := by
  by_cases ha : a < memCells
  · rw [memWrite_of_lt a v s ha, cellText_setCell_other s a c _ h]
  · rw [memWrite_of_ge a v s (Nat.le_of_not_lt ha), cellText_withEntries]

/-! ## The memory under a step and a host edit -/

/-- A cell's text depends on the memory alone. -/
theorem cellText_congr {s t : State} (h : t.mem = s.mem) (a : Nat) : cellText t a = cellText s a := by
  rw [cellText, cellText, h]

theorem step_mem_of_opcode_ne_three {s t : State} (h : step s = .next t) (hop : (fetchedOpcode s).toNat / 16 ≠ 3) :
    t.mem = s.mem := by
  have hrow : Laws.opcodeOf (decode (fetchedOpcode s) (fetchedOperand s)) ≠ 3 := by
    rw [opcodeOf_decode]
    intro h3
    exact hop (by rw [← opField_toNat, h3]; rfl)
  rw [step_eq_commit] at h
  cases h
  rw [commit_mem, ruleOf_mem _ _ hrow, afterFetch_mem]

theorem step_cellText_of_opcode_three {s t : State} (h : step s = .next t) (hop : (fetchedOpcode s).toNat / 16 = 3)
    {a : Nat} (ha : a ≠ (fetchedOperand s).toNat) : cellText t a = cellText s a := by
  rw [step_eq_commit, decode_of_opcode_three _ hop] at h
  cases h
  rw [cellText_congr (commit_mem _ _), ← cellText_congr (afterFetch_mem s)]
  exact cellText_memWrite_other _ _ ha

theorem hostCommand_editCell_of_lt {a : Nat} (x : Text) (s : State) (h : a < memCells) :
    hostCommand (.editCell a x) s = .next (setCell s a x) := if_pos h

/-- Settles O35: a step by the case split over the instructions' rules (`ruleOf_mem`), the host's edit by the laws of
`setCell`. -/
theorem onlyStoreWritesMemory : Obligations.OnlyStoreWritesMemory := by
  unfold Obligations.OnlyStoreWritesMemory
  refine ⟨fun s t h => ⟨step_mem_of_opcode_ne_three h, fun hop a => step_cellText_of_opcode_three h hop⟩, ?_⟩
  intro s a x hwf ha
  exact ⟨setCell s a x, hostCommand_editCell_of_lt x s (Nat.lt_succ_of_le ha),
    Memory.read_write_self_of_wf s.mem a x hwf, fun c => cellText_setCell_other s a c x, setCell_log .., setCell_dirty ..⟩

end Sys2Proof.Machine
end

section
/-! The family of the encoding (30_encoding.md). The fields of the two bytes as numbers, the decoder on each illegal row of
the opcode map, and what the fatal and the halting rules of those rows answer. -/

namespace Sys2Proof.Machine

/-! ## The fields -/

theorem hiField_toNat (b : Byte) : (hiField b).toNat = b.toNat / 16 := opField_toNat b

theorem loField_toNat (b : Byte) : (loField b).toNat = b.toNat % 16 := regField_toNat b

theorem regField_ne_zero {b : Byte} (h : b.toNat % 16 ≠ 0) : regField b ≠ 0 := by
  intro h0
  rw [← regField_toNat, h0] at h
  exact h rfl

theorem hiField_ne_zero {b : Byte} (h : b.toNat / 16 ≠ 0) : hiField b ≠ 0 := by
  intro h0
  rw [← hiField_toNat, h0] at h
  exact h rfl

/-- Settles O3: the four fields are quotients and remainders of their bytes, and `W = B1 * 256 + B2` with `B2 < 256`
holds the same digits. -/
theorem fieldsAreTheNamedBits : Obligations.FieldsAreTheNamedBits := by
  unfold Obligations.FieldsAreTheNamedBits
  intro b1 b2 w
  have hb1 : b1.toNat < 256 := b1.isLt
  have hb2 : b2.toNat < 256 := b2.isLt
  have hhigh : w / 256 = b1.toNat := by omega
  have hlow : w % 256 = b2.toNat := by omega
  rw [opField_toNat, regField_toNat, hiField_toNat, loField_toNat]
  refine ⟨rfl, rfl, rfl, rfl, ?op, ?reg, ?hi, ?lo, hlow.symm⟩
  case op => omega
  case reg => rw [hhigh]
  case hi => omega
  case lo => omega

/-! ## The decoder on a row of the opcode map -/

/-- The opcode number picks the row: decoding goes on with a literal opcode nibble (30_encoding.md R59). -/
theorem decode_of_opcode {b1 : Byte} {n : Nat} (b2 : Byte) (h : b1.toNat / 16 = n) :
    decode b1 b2 = decode (BitVec.ofNat 4 n ++ regField b1) b2 := by
  have hop : BitVec.ofNat 4 n = opField b1 := by
    rw [← h, ← opField_toNat, BitVec.ofNat_toNat, BitVec.setWidth_eq]
  rw [hop, opField_append_regField]

theorem decode_of_opcode_zero {b1 : Byte} (b2 : Byte) (h : b1.toNat / 16 = 0) :
    decode b1 b2 = .unrecognized0 (restField b1 b2) := by
  rw [decode_of_opcode b2 h, decode_append]
  rfl

theorem decode_of_opcode_four {b1 : Byte} (b2 : Byte) (h : b1.toNat / 16 = 4) (hreg : regField b1 ≠ 0) :
    decode b1 b2 = .moveIllegal (regField b1) (hiField b2) (loField b2) := by
  rw [decode_of_opcode b2 h, decode_append]
  exact if_neg hreg

theorem decode_of_opcode_six {b1 : Byte} (b2 : Byte) (h : b1.toNat / 16 = 6) :
    decode b1 b2 = .reserved6 (restField b1 b2) := by
  rw [decode_of_opcode b2 h, decode_append]
  rfl

theorem decode_of_opcode_ten {b1 b2 : Byte} (h : b1.toNat / 16 = 10) (hhi : hiField b2 ≠ 0) :
    decode b1 b2 = .rorIllegal (regField b1) (hiField b2) (loField b2) := by
  rw [decode_of_opcode b2 h, decode_append]
  exact if_neg hhi

theorem decode_of_opcode_thirteen {b1 : Byte} (b2 : Byte) (h : b1.toNat / 16 = 13) :
    decode b1 b2 = .unrecognizedD (restField b1 b2) := by
  rw [decode_of_opcode b2 h, decode_append]
  rfl

theorem decode_of_opcode_fourteen {b1 : Byte} (b2 : Byte) (h : b1.toNat / 16 = 14) :
    decode b1 b2 = .unrecognizedE (restField b1 b2) := by
  rw [decode_of_opcode b2 h, decode_append]
  rfl

theorem decode_of_opcode_fifteen {b1 : Byte} (b2 : Byte) (h : b1.toNat / 16 = 15) :
    decode b1 b2 = .unrecognizedF (restField b1 b2) := by
  rw [decode_of_opcode b2 h, decode_append]
  rfl

/-- `Crxy` with a nonzero field is the malformed HALT (30_encoding.md R62). -/
theorem decode_halt_of_ne {reg : Nibble} {xy : Byte} (h : reg ≠ 0 ∨ xy ≠ 0) :
    decode (0xC#4 ++ reg) xy = .haltMalformed reg xy := by
  rw [decode_append]
  exact if_neg (not_and_or.mpr h)

/-! ## Fatal and halting rules -/

theorem exec_of_raiseFatal {i : Instr} {k : EntryKind} {s : State} (h : ruleOf i s = raiseFatal k s) :
    exec i s = .next (fatalState s k) := by
  rw [exec_eq_runRule, runRule_eq, h, raiseFatal_eq, commit_stop]

theorem moveRule_of_ne {reg : Nibble} (hi lo : Nibble) (s : State) (h : reg ≠ 0) :
    moveRule reg hi lo s = raiseFatal .moveForm s :=
  if_pos (bne_iff_ne.mpr h)

theorem rorRule_of_ne {hi : Nibble} (reg lo : Nibble) (s : State) (h : hi ≠ 0) :
    rorRule reg hi lo s = raiseFatal .rotateForm s :=
  if_pos (bne_iff_ne.mpr h)

theorem haltFormBad_iff (reg : Nibble) (xy : Byte) : haltFormBad reg xy = true ↔ reg ≠ 0 ∨ xy ≠ 0 := by
  rw [haltFormBad, Bool.or_eq_true, bne_iff_ne, bne_iff_ne, or_comm]

theorem exec_halt (s : State) : exec .halt s = .next (stopMachine s) := rfl

theorem haltRule_of_ne {reg : Nibble} {xy : Byte} (s : State) (h : reg ≠ 0 ∨ xy ≠ 0) :
    haltRule reg xy s = raiseFatal .haltForm s := by
  rw [haltRule, if_pos ((haltFormBad_iff reg xy).mpr h), raiseFatal]

/-- A malformed HALT answers as a fatal error of its own kind would (43_control.md R101). -/
theorem exec_haltMalformed_of_ne {reg : Nibble} {xy : Byte} (s : State) (h : reg ≠ 0 ∨ xy ≠ 0) :
    exec (.haltMalformed reg xy) s = .next (fatalState s .haltForm) :=
  exec_of_raiseFatal (haltRule_of_ne s h)

/-- Settles O23: `C000` answers `stopMachine s`, and `fatalState s .haltForm` is that state with the entry appended. -/
theorem malformedHaltHaltsWithOneEntry : Obligations.MalformedHaltHaltsWithOneEntry := by
  unfold Obligations.MalformedHaltHaltsWithOneEntry
  intro reg xy s h
  exact ⟨decode_halt_of_ne h, rfl, stopMachine s, fatalState s .haltForm, logEntry .error .haltForm s.pc.toNat,
    exec_halt s, exec_haltMalformed_of_ne s h, rfl, rfl, rfl⟩

/-! ## The illegal encodings -/

/-- The rows of the table of illegal encodings, each with its condition and its kind (30_encoding.md R61). -/
inductive IllegalRow (b1 b2 : Byte) : EntryKind → Prop where
  | op0 (hop : b1.toNat / 16 = 0) : IllegalRow b1 b2 .unrecognized
  | op4 (hop : b1.toNat / 16 = 4) (hreg : b1.toNat % 16 ≠ 0) : IllegalRow b1 b2 .moveForm
  | op6 (hop : b1.toNat / 16 = 6) : IllegalRow b1 b2 .reserved6
  | opA (hop : b1.toNat / 16 = 10) (hhi : b2.toNat / 16 ≠ 0) : IllegalRow b1 b2 .rotateForm
  | opD (hop : b1.toNat / 16 = 13) : IllegalRow b1 b2 .unrecognized
  | opE (hop : b1.toNat / 16 = 14) : IllegalRow b1 b2 .unrecognized
  | opF (hop : b1.toNat / 16 = 15) : IllegalRow b1 b2 .unrecognized

/-- The opcodes from 13 up are the last three rows of the table. -/
theorem illegalRow_of_opcode_ge {b1 : Byte} (b2 : Byte) (h : 13 ≤ b1.toNat / 16) : IllegalRow b1 b2 .unrecognized := by
  have hb1 : b1.toNat < 256 := b1.isLt
  obtain hD | hE | hF : b1.toNat / 16 = 13 ∨ b1.toNat / 16 = 14 ∨ b1.toNat / 16 = 15 := by omega
  · exact .opD hD
  · exact .opE hE
  · exact .opF hF

theorem illegalKind_eq_some_iff (b1 b2 : Byte) (k : EntryKind) : illegalKind b1 b2 = some k ↔ IllegalRow b1 b2 k := by
  constructor
  · intro h
    simp only [illegalKind] at h
    split_ifs at h with h0 h4 h6 hA hge <;> cases h
    · exact .op0 h0
    · exact .op4 h4.1 h4.2
    · exact .op6 h6
    · exact .opA hA.1 hA.2
    · exact illegalRow_of_opcode_ge b2 hge
  · intro h
    cases h <;> simp [illegalKind, *]

/-- The decoded instruction of an illegal row runs the fatal path with the row's kind, and nothing else. -/
theorem ruleOf_decode_of_illegalRow {b1 b2 : Byte} {k : EntryKind} (s : State) (h : IllegalRow b1 b2 k) :
    ruleOf (decode b1 b2) s = raiseFatal k s := by
  cases h with
  | op0 hop => rw [decode_of_opcode_zero b2 hop, ruleOf, unrecognizedRule]
  | op4 hop hreg =>
    have hne := regField_ne_zero hreg
    rw [decode_of_opcode_four b2 hop hne, ruleOf, moveRule_of_ne _ _ s hne]
  | op6 hop => rw [decode_of_opcode_six b2 hop, ruleOf, reserved6Rule]
  | opA hop hhi =>
    have hne := hiField_ne_zero hhi
    rw [decode_of_opcode_ten hop hne, ruleOf, rorRule_of_ne _ _ s hne]
  | opD hop => rw [decode_of_opcode_thirteen b2 hop, ruleOf, unrecognizedRule]
  | opE hop => rw [decode_of_opcode_fourteen b2 hop, ruleOf, unrecognizedRule]
  | opF hop => rw [decode_of_opcode_fifteen b2 hop, ruleOf, unrecognizedRule]

/-- Settles O27, by the rows of the table: each decodes to an instruction whose rule is `raiseFatal` of the row's kind. -/
theorem illegalEncodingsStopTheMachine : Obligations.IllegalEncodingsStopTheMachine := by
  unfold Obligations.IllegalEncodingsStopTheMachine
  intro b1 b2 k s h
  exact exec_of_raiseFatal (ruleOf_decode_of_illegalRow s ((illegalKind_eq_some_iff b1 b2 k).mp h))

end Sys2Proof.Machine
end

section
/-! The family of the step cycle (40_step_cycle.md). How a taken branch completes, and that no operation of a step reads the
execution state: a rule run after the state was replaced gives what it gave before, with the same replacement unless it
stops. -/

namespace Sys2Proof.Machine

/-! ## A taken branch -/

theorem branchHolds_iff (s : State) (reg : Nibble) : branchHolds s reg = true ↔ readReg s reg = readReg s 0 := by
  rw [branchHolds, beq_iff_eq, comparisonReg]

theorem beqRule_of_eq {reg : Nibble} (xy : Byte) {s : State} (h : readReg s reg = readReg s 0) :
    beqRule reg xy s = ⟨.taken xy, s⟩ :=
  if_pos ((branchHolds_iff s reg).mpr h)

theorem ticked_commit_taken (s : State) (pc0 target : Byte) : ticked s (commit pc0 ⟨.taken target, s⟩) := by
  rw [ticked, commit_taken, timerTick_toNat, setPc_timer]

/-- Settles O20: BEQ answers the commit of `taken xy` on its own state, which loads the counter, ticks the timer and
touches no other field. -/
theorem takenBranchLoadsCounter : Obligations.TakenBranchLoadsCounter := by
  unfold Obligations.TakenBranchLoadsCounter
  intro reg xy s h
  refine ⟨commit s.pc ⟨.taken xy, s⟩, ?exec, ?counter, ticked_commit_taken s s.pc xy, ?registers, ?cells, ?control⟩
  case exec => rw [exec_eq_runRule, runRule_eq, ruleOf, beqRule_of_eq xy h]
  case counter => rw [commit_taken, timerTick_pc, setPc_pc]
  case registers =>
    intro q
    rw [commit_taken, readReg_timerTick, readReg_setPc]
  case cells =>
    intro a
    rw [commit_taken, cellText_timerTick, cellText_setPc]
  case control => exact ⟨rfl, rfl, rfl⟩

/-! ## The execution state replaced -/

/-- The state with its execution state replaced. -/
def withExecState (s : State) (e : ExecState) : State := { s with execState := e }

/-- What a rule returns, with the execution state it was run in replaced: where it stops, the state it leaves is Stopped
whatever it was run in. -/
def Ruled.withExecState (r : Ruled) (e : ExecState) : Ruled :=
  if r.outcome = .stop then r else ⟨r.outcome, Machine.withExecState r.state e⟩

@[simp] theorem withExecState_execState (s : State) (e : ExecState) : (withExecState s e).execState = e := rfl

theorem withExecState_restored (s : State) (e : ExecState) :
    { withExecState s e with execState := s.execState } = s := rfl

@[simp] theorem fetchedOpcode_withExecState (s : State) (e : ExecState) :
    fetchedOpcode (withExecState s e) = fetchedOpcode s := rfl

@[simp] theorem fetchedOperand_withExecState (s : State) (e : ExecState) :
    fetchedOperand (withExecState s e) = fetchedOperand s := rfl

@[simp] theorem afterFetch_withExecState (s : State) (e : ExecState) :
    afterFetch (withExecState s e) = withExecState (afterFetch s) e := rfl

theorem indirectOperand_withExecState (xy : Byte) (s : State) (e : ExecState) :
    indirectOperand xy (withExecState s e) =
      ((indirectOperand xy s).1, withExecState (indirectOperand xy s).2 e) := by
  simp only [indirectOperand, memRead_eq]
  rfl

theorem memWrite_withExecState (a : Nat) (v : Byte) (s : State) (e : ExecState) :
    memWrite a v (withExecState s e) = withExecState (memWrite a v s) e := by
  by_cases ha : a < memCells
  · rw [memWrite_of_lt _ _ _ ha, memWrite_of_lt _ _ _ ha]
    rfl
  · have hge := Nat.le_of_not_lt ha
    rw [memWrite_of_ge _ _ _ hge, memWrite_of_ge _ _ _ hge]
    rfl

theorem commit_withExecState_of_stop (pc0 : Byte) {r : Ruled} (e : ExecState) (h : r.outcome = .stop) :
    commit pc0 (r.withExecState e) = commit pc0 r := by
  rw [Ruled.withExecState, if_pos h]

theorem commit_withExecState_of_ne_stop (pc0 : Byte) {r : Ruled} (e : ExecState) (h : r.outcome ≠ .stop) :
    commit pc0 (r.withExecState e) = withExecState (commit pc0 r) e := by
  rw [Ruled.withExecState, if_neg h]
  obtain ⟨outcome, s⟩ := r
  cases outcome with
  | stop => exact absurd rfl h
  | next | taken => rfl

/-! ## The rules do not read the execution state -/

/-- A rule with a fatal case and a completing one. -/
theorem fatal_or_next_withExecState (bad : Bool) (kind : EntryKind) (s t : State) (e : ExecState) :
    (if bad then raiseFatal kind (withExecState s e) else ⟨.next, withExecState t e⟩ : Ruled) =
      Ruled.withExecState (if bad then raiseFatal kind s else ⟨.next, t⟩) e := by
  cases bad <;> rfl

theorem moveRule_withExecState (reg hi lo : Nibble) (s : State) (e : ExecState) :
    moveRule reg hi lo (withExecState s e) = (moveRule reg hi lo s).withExecState e :=
  fatal_or_next_withExecState (moveFormBad reg) .moveForm s (writeReg s lo (readReg s hi)) e

theorem addRule_withExecState (reg hi lo : Nibble) (s : State) (e : ExecState) :
    addRule reg hi lo (withExecState s e) = (addRule reg hi lo s).withExecState e :=
  fatal_or_next_withExecState (addOverflows (readReg s hi) (readReg s lo)) .addOverflow s
    (writeReg s reg (BitVec.ofNat 8 (exactSum (readReg s hi) (readReg s lo)))) e

theorem rorRule_withExecState (reg hi lo : Nibble) (s : State) (e : ExecState) :
    rorRule reg hi lo (withExecState s e) = (rorRule reg hi lo s).withExecState e :=
  fatal_or_next_withExecState (rotateFormBad hi) .rotateForm s
    (writeReg s reg (rotr8 (readReg s reg) (rotateCount lo))) e

theorem loadRule_withExecState (reg : Nibble) (xy : Byte) (s : State) (e : ExecState) :
    loadRule reg xy (withExecState s e) = (loadRule reg xy s).withExecState e := by
  simp only [loadRule, indirectOperand_withExecState]
  rfl

theorem storeRule_withExecState (reg : Nibble) (xy : Byte) (s : State) (e : ExecState) :
    storeRule reg xy (withExecState s e) = (storeRule reg xy s).withExecState e := by
  rw [storeRule, memWrite_withExecState]
  rfl

theorem beqRule_withExecState (reg : Nibble) (xy : Byte) (s : State) (e : ExecState) :
    beqRule reg xy (withExecState s e) = (beqRule reg xy s).withExecState e := by
  have hcond : branchHolds (withExecState s e) reg = branchHolds s reg := rfl
  rw [beqRule, beqRule, hcond]
  split <;> rfl

theorem haltRule_withExecState (reg : Nibble) (xy : Byte) (s : State) (e : ExecState) :
    haltRule reg xy (withExecState s e) = (haltRule reg xy s).withExecState e := by
  rw [haltRule, haltRule]
  split <;> rfl

/-- No rule reads the execution state (40_step_cycle.md R68). -/
theorem ruleOf_withExecState (i : Instr) (s : State) (e : ExecState) :
    ruleOf i (withExecState s e) = (ruleOf i s).withExecState e := by
  cases i with
  | load reg xy => exact loadRule_withExecState reg xy s e
  | store reg xy => exact storeRule_withExecState reg xy s e
  | beq reg xy => exact beqRule_withExecState reg xy s e
  | halt => exact haltRule_withExecState 0 0 s e
  | haltMalformed reg xy => exact haltRule_withExecState reg xy s e
  | move hi lo => exact moveRule_withExecState 0 hi lo s e
  | moveIllegal reg hi lo => exact moveRule_withExecState reg hi lo s e
  | add reg hi lo => exact addRule_withExecState reg hi lo s e
  | ror reg lo => exact rorRule_withExecState reg 0 lo s e
  | rorIllegal reg hi lo => exact rorRule_withExecState reg hi lo s e
  | loadi | or | and | xor => rfl
  | reserved6 | unrecognized0 | unrecognizedD | unrecognizedE | unrecognizedF => rfl

/-! ## The step does not read the execution state -/

/-- The step from the replaced state commits what the same rule returned, with the same replacement. -/
theorem step_withExecState (s : State) (e : ExecState) :
    step (withExecState s e) = .next (commit s.pc
      ((ruleOf (decode (fetchedOpcode s) (fetchedOperand s)) (afterFetch s)).withExecState e)) := by
  have hpc : (withExecState s e).pc = s.pc := rfl
  rw [step_eq_commit, fetchedOpcode_withExecState, fetchedOperand_withExecState, afterFetch_withExecState,
    ruleOf_withExecState, hpc]

/-- Settles O37, by whether the fetched instruction's rule stops: if it does, the two steps answer one and the same state,
and if not, their states differ as the states they started from do. -/
theorem stepIgnoresExecutionState : Obligations.StepIgnoresExecutionState := by
  unfold Obligations.StepIgnoresExecutionState
  intro s t e h
  have hstep := step_withExecState s e
  have hexec := step_execState h
  rw [step_eq_commit] at h
  cases h
  by_cases hstop : (ruleOf (decode (fetchedOpcode s) (fetchedOperand s)) (afterFetch s)).outcome = .stop
  · rw [commit_withExecState_of_stop _ e hstop] at hstep
    rw [if_pos hstop] at hexec
    exact ⟨_, hstep, rfl, .inr ⟨hexec, hexec⟩⟩
  · rw [commit_withExecState_of_ne_stop _ e hstop] at hstep
    rw [if_neg hstop] at hexec
    exact ⟨_, hstep, withExecState_restored _ e, .inl ⟨hexec, withExecState_execState _ e⟩⟩

end Sys2Proof.Machine
end

section
/-! The family of the data transfer (41_data_transfer.md). What an instruction that completes by writing one register
answers, and the encodings and rules of LOADI and MOVE. -/

namespace Sys2Proof.Machine

/-! ## An instruction that writes one register -/

theorem otherRegistersKept_commit_writeReg (s : State) (r : Nibble) (v pc0 : Byte) :
    otherRegistersKept r s (commit pc0 ⟨.next, writeReg s r v⟩) := by
  intro q hq
  rw [commit_next, readReg_timerTick, readReg_setPc, readReg_writeReg, if_neg hq]

theorem cellsKept_commit_writeReg (s : State) (r : Nibble) (v pc0 : Byte) :
    cellsKept s (commit pc0 ⟨.next, writeReg s r v⟩) := by
  intro a
  rw [commit_next, cellText_timerTick, cellText_setPc, cellText_writeReg]

theorem controlKept_commit_writeReg (s : State) (r : Nibble) (v pc0 : Byte) :
    controlKept s (commit pc0 ⟨.next, writeReg s r v⟩) := ⟨rfl, rfl, rfl⟩

/-- An instruction whose rule completes with one register written changes that register, the counter and the timer, and
nothing else. -/
theorem exec_of_writeReg {i : Instr} {s : State} {r : Nibble} {v : Byte} (h : ruleOf i s = ⟨.next, writeReg s r v⟩) :
    ∃ t, exec i s = .next t ∧ readReg t r = v ∧ otherRegistersKept r s t ∧ cellsKept s t ∧ controlKept s t ∧
      advancedByTwo s t ∧ ticked s t := by
  refine ⟨commit s.pc ⟨.next, writeReg s r v⟩, ?exec, ?written, otherRegistersKept_commit_writeReg s r v s.pc,
    cellsKept_commit_writeReg s r v s.pc, controlKept_commit_writeReg s r v s.pc, advancedByTwo_commit_next s _,
    ticked_commit_next (writeReg_timer ..)⟩
  case exec => rw [exec_eq_runRule, runRule_eq, h]
  case written => rw [commit_next, readReg_timerTick, readReg_setPc, readReg_writeReg_self]

/-! ## LOADI -/

theorem decode_loadi (reg : Nibble) (xy : Byte) : decode (0x2#4 ++ reg) xy = .loadi reg xy := by
  rw [decode_append]
  rfl

/-- Settles O11: the rule of LOADI writes the operand byte to the register and completes. -/
theorem loadiLoadsOperandByte : Obligations.LoadiLoadsOperandByte := by
  unfold Obligations.LoadiLoadsOperandByte
  intro reg xy s
  have hrule : ruleOf (.loadi reg xy) s = ⟨.next, writeReg s reg xy⟩ := by rw [ruleOf, loadiRule]
  exact ⟨decode_loadi reg xy, exec_of_writeReg hrule⟩

/-! ## MOVE -/

theorem decode_move (hi lo : Nibble) : decode (0x4#4 ++ 0x0#4) (hi ++ lo) = .move hi lo := by
  rw [decode_append, hiField_append, loField_append]
  rfl

/-- `4rsd` with `r ≠ 0` is the illegal form of MOVE (30_encoding.md R61). -/
theorem decode_move_of_ne {reg : Nibble} (hi lo : Nibble) (h : reg ≠ 0) :
    decode (0x4#4 ++ reg) (hi ++ lo) = .moveIllegal reg hi lo := by
  rw [decode_append, hiField_append, loField_append]
  exact if_neg h

theorem moveRule_zero (hi lo : Nibble) (s : State) : moveRule 0 hi lo s = ⟨.next, writeReg s lo (readReg s hi)⟩ :=
  if_neg Bool.false_ne_true

theorem fatalState_moveForm (s : State) :
    fatalState s .moveForm = { s with
      log := s.log ++ [⟨.error, .moveForm, s.pc.toNat, "opcode 0x4 must be followed by 0".toList⟩]
      dirty := true
      execState := .stopped } := rfl

/-- Settles O15, by the two forms: MOVE's rule writes the one register and completes where the `reg` field is 0, and is
`raiseFatal` of MoveForm where it is not. -/
theorem moveCopiesOrStopsOnForm : Obligations.MoveCopiesOrStopsOnForm := by
  unfold Obligations.MoveCopiesOrStopsOnForm
  intro reg hi lo s
  refine ⟨⟨decode_move hi lo, exec_of_writeReg (moveRule_zero hi lo s)⟩, fun hreg => ⟨decode_move_of_ne hi lo hreg, ?_⟩⟩
  rw [← fatalState_moveForm]
  exact exec_of_raiseFatal (moveRule_of_ne hi lo s hreg)

end Sys2Proof.Machine
end

section
/-! The family of the ALU (42_alu.md). The encodings of the register forms, the two cases of ADD, and the bits of the
results of OR, AND, XOR and ROR. -/

namespace Sys2Proof.Machine

/-! ## The encodings -/

theorem decode_add (reg hi lo : Nibble) : decode (0x5#4 ++ reg) (hi ++ lo) = .add reg hi lo := by
  rw [decode_append, hiField_append, loField_append]
  rfl

theorem decode_or (reg hi lo : Nibble) : decode (0x7#4 ++ reg) (hi ++ lo) = .or reg hi lo := by
  rw [decode_append, hiField_append, loField_append]
  rfl

theorem decode_and (reg hi lo : Nibble) : decode (0x8#4 ++ reg) (hi ++ lo) = .and reg hi lo := by
  rw [decode_append, hiField_append, loField_append]
  rfl

theorem decode_xor (reg hi lo : Nibble) : decode (0x9#4 ++ reg) (hi ++ lo) = .xor reg hi lo := by
  rw [decode_append, hiField_append, loField_append]
  rfl

theorem decode_ror (reg lo : Nibble) : decode (0xA#4 ++ reg) (0x0#4 ++ lo) = .ror reg lo := by
  rw [decode_append, hiField_append, loField_append]
  rfl

/-- `Arhn` with `h ≠ 0` is the illegal form of ROR (30_encoding.md R61). -/
theorem decode_ror_of_ne {hi : Nibble} (reg lo : Nibble) (h : hi ≠ 0) :
    decode (0xA#4 ++ reg) (hi ++ lo) = .rorIllegal reg hi lo := by
  rw [decode_append, hiField_append, loField_append]
  exact if_neg h

/-! ## ADD -/

theorem addOverflows_iff (a b : Byte) : addOverflows a b = true ↔ a.toNat + b.toNat > 255 := by
  rw [addOverflows, decide_eq_true_iff, exactSum]

theorem ofNat_exactSum_toNat {a b : Byte} (h : a.toNat + b.toNat ≤ 255) :
    (BitVec.ofNat 8 (exactSum a b)).toNat = a.toNat + b.toNat := by
  rw [BitVec.toNat_ofNat, exactSum, Nat.mod_eq_of_lt (Nat.lt_succ_of_le h)]

theorem addRule_of_le {hi lo : Nibble} (reg : Nibble) {s : State}
    (h : (readReg s hi).toNat + (readReg s lo).toNat ≤ 255) :
    addRule reg hi lo s =
      ⟨.next, writeReg s reg (BitVec.ofNat 8 (exactSum (readReg s hi) (readReg s lo)))⟩ :=
  if_neg fun hover => Nat.not_lt.mpr h ((addOverflows_iff _ _).mp hover)

theorem addRule_of_gt {hi lo : Nibble} (reg : Nibble) {s : State}
    (h : (readReg s hi).toNat + (readReg s lo).toNat > 255) : addRule reg hi lo s = raiseFatal .addOverflow s :=
  if_pos ((addOverflows_iff _ _).mpr h)

/-- Settles O16, by whether the exact sum fits in a byte: it is written unreduced where it does, and ADD's rule is
`raiseFatal` of AddOverflow where it does not. -/
theorem addIsCheckedUnsignedSum : Obligations.AddIsCheckedUnsignedSum := by
  unfold Obligations.AddIsCheckedUnsignedSum
  intro reg hi lo s
  refine ⟨decode_add reg hi lo, fun hle => ?fits, fun hgt => exec_of_raiseFatal (addRule_of_gt reg hgt)⟩
  case fits =>
    obtain ⟨t, hexec, hwritten, hframe⟩ := exec_of_writeReg (i := .add reg hi lo) (addRule_of_le reg hle)
    exact ⟨t, hexec, hwritten ▸ ofNat_exactSum_toNat hle, hframe⟩

/-! ## OR, AND and XOR -/

/-- An instruction whose rule completes with one register written, where the bits of the value written are known. -/
theorem exec_of_writeReg_bits {i : Instr} {s : State} {r : Nibble} {v : Byte} {bit : Nat → Bool}
    (h : ruleOf i s = ⟨.next, writeReg s r v⟩) (hbits : ∀ n, v.getLsbD n = bit n) :
    ∃ t, exec i s = .next t ∧ (∀ n, (readReg t r).getLsbD n = bit n) ∧ otherRegistersKept r s t ∧ cellsKept s t ∧
      controlKept s t ∧ advancedByTwo s t ∧ ticked s t := by
  obtain ⟨t, hexec, hwritten, hframe⟩ := exec_of_writeReg h
  exact ⟨t, hexec, hwritten ▸ hbits, hframe⟩

/-- Settles O18: each of the three rules writes the bitwise combination of the sources and completes. -/
theorem bitwiseInstructionsCombineBits : Obligations.BitwiseInstructionsCombineBits := by
  unfold Obligations.BitwiseInstructionsCombineBits
  intro reg hi lo s
  have hor : ruleOf (.or reg hi lo) s = ⟨.next, writeReg s reg (readReg s lo ||| readReg s hi)⟩ := by
    rw [ruleOf, orRule]
  have hand : ruleOf (.and reg hi lo) s = ⟨.next, writeReg s reg (readReg s lo &&& readReg s hi)⟩ := by
    rw [ruleOf, andRule]
  have hxor : ruleOf (.xor reg hi lo) s = ⟨.next, writeReg s reg (readReg s lo ^^^ readReg s hi)⟩ := by
    rw [ruleOf, xorRule]
  exact ⟨⟨decode_or reg hi lo, exec_of_writeReg_bits hor fun _ => BitVec.getLsbD_or⟩,
    ⟨decode_and reg hi lo, exec_of_writeReg_bits hand fun _ => BitVec.getLsbD_and⟩,
    ⟨decode_xor reg hi lo, exec_of_writeReg_bits hxor fun _ => BitVec.getLsbD_xor⟩⟩

/-! ## ROR -/

theorem rotateCount_lt (lo : Nibble) : rotateCount lo < 8 := Nat.mod_lt _ (by decide)

/-- The spec's rotate is the library's, which has no case for the count 0: there the shift left by 8 brings in nothing. -/
theorem rotr8_eq_rotateRight (v : Byte) {c : Nat} (hc : c < 8) : rotr8 v c = v.rotateRight c := by
  by_cases h0 : c = 0
  · have hout : v <<< 8 = 0#8 := BitVec.shiftLeft_eq_zero (Nat.le_refl 8)
    rw [rotr8, if_pos h0, h0, BitVec.rotateRight_def, Nat.zero_mod, Nat.sub_zero, hout, BitVec.or_zero,
      BitVec.ushiftRight_zero]
  · rw [rotr8, if_neg h0, BitVec.rotateRight_def, Nat.mod_eq_of_lt hc]

/-- Bit `n` of the rotated byte: the low `8 - c` bits come from `c` places up, the others wrap (42_alu.md R96). -/
theorem getLsbD_rotr8 (v : Byte) {c n : Nat} (hc : c < 8) (hn : n < 8) :
    (rotr8 v c).getLsbD n = v.getLsbD ((n + c) % 8) := by
  rw [rotr8_eq_rotateRight v hc, BitVec.getLsbD_rotateRight, Nat.mod_eq_of_lt hc]
  by_cases hlow : n < 8 - c
  · have hindex : (n + c) % 8 = c + n := by omega
    rw [decide_eq_true hlow, cond_true, hindex]
  · have hindex : (n + c) % 8 = n - (8 - c) := by omega
    rw [decide_eq_false hlow, cond_false, decide_eq_true hn, Bool.true_and, hindex]

theorem rorRule_zero (reg lo : Nibble) (s : State) :
    rorRule reg 0 lo s = ⟨.next, writeReg s reg (rotr8 (readReg s reg) (rotateCount lo))⟩ :=
  if_neg Bool.false_ne_true

/-- Settles O19, by the two forms: ROR's rule writes the rotated value and completes where the `hi` field is 0, and is
`raiseFatal` of RotateForm where it is not. -/
theorem rorRotatesOrStopsOnForm : Obligations.RorRotatesOrStopsOnForm := by
  unfold Obligations.RorRotatesOrStopsOnForm
  intro reg hi lo s
  refine ⟨⟨decode_ror reg lo, ?rotates⟩,
    fun hhi => ⟨decode_ror_of_ne reg lo hhi, exec_of_raiseFatal (rorRule_of_ne reg lo s hhi)⟩⟩
  case rotates =>
    obtain ⟨t, hexec, hwritten, hframe⟩ := exec_of_writeReg (i := .ror reg lo) (rorRule_zero reg lo s)
    exact ⟨t, hexec, fun n hn => hwritten ▸ getLsbD_rotr8 _ (rotateCount_lt lo) hn, hframe⟩

end Sys2Proof.Machine
end

section
/-! The family of the reserved and the unrecognized opcodes (44_reserved_unrecognized.md). Their rules are `raiseFatal`
alone, so what remains to say of them is the text of the entry. -/

namespace Sys2Proof.Machine

/-! ## The quoted messages -/

@[simp] theorem messageOf_reserved6 (a : Nat) : messageOf .reserved6 a = "Developing opcode 0x6".toList := rfl

@[simp] theorem messageOf_unrecognized (a : Nat) : messageOf .unrecognized a = "opcode not recognized".toList := rfl

/-- A fatal instruction whose kind has a quoted message answers the same state with the entry that quotes it, Stopped. -/
theorem exec_of_raiseFatal_message {i : Instr} {k : EntryKind} {s : State} {msg : Text}
    (hrule : ruleOf i s = raiseFatal k s) (hmsg : messageOf k s.pc.toNat = msg) :
    exec i s = .next { s with
      log := s.log ++ [⟨.error, k, s.pc.toNat, msg⟩]
      dirty := true
      execState := .stopped } := by
  rw [exec_of_raiseFatal hrule, ← hmsg]
  rfl

/-! ## Opcode 6 -/

/-- Settles O25: opcode 6 picks the row of RESERVED6, whose rule is `raiseFatal` of Reserved6. -/
theorem opcodeSixAlwaysStops : Obligations.OpcodeSixAlwaysStops := by
  unfold Obligations.OpcodeSixAlwaysStops
  intro b1 b2 s hop
  refine ⟨⟨restField b1 b2, decode_of_opcode_six b2 hop⟩, fun rest => ?_⟩
  have hrule : ruleOf (.reserved6 rest) s = raiseFatal .reserved6 s := by rw [ruleOf, reserved6Rule]
  exact exec_of_raiseFatal_message hrule (messageOf_reserved6 _)

/-! ## The opcodes 0, 13, 14 and 15 -/

/-- Settles O26: each of the four opcodes picks its row of UNRECOGNIZED, and all four instructions have the one rule that
is `raiseFatal` of Unrecognized. -/
theorem unrecognizedOpcodesAlwaysStop : Obligations.UnrecognizedOpcodesAlwaysStop := by
  unfold Obligations.UnrecognizedOpcodesAlwaysStop
  intro b1 b2 s stopped
  have hstops {i : Instr} (hrule : ruleOf i = unrecognizedRule) : exec i s = stopped :=
    exec_of_raiseFatal_message (by rw [hrule, unrecognizedRule]) (messageOf_unrecognized _)
  refine ⟨fun hop => ?op0, fun hop => ?opD, fun hop => ?opE, fun hop => ?opF, fun rest => ?stops⟩
  case op0 => exact ⟨_, decode_of_opcode_zero b2 hop⟩
  case opD => exact ⟨_, decode_of_opcode_thirteen b2 hop⟩
  case opE => exact ⟨_, decode_of_opcode_fourteen b2 hop⟩
  case opF => exact ⟨_, decode_of_opcode_fifteen b2 hop⟩
  case stops => exact ⟨hstops rfl, hstops rfl, hstops rfl, hstops rfl⟩

end Sys2Proof.Machine
end

section
/-! The family of the exceptions (60_exceptions.md). The fatal path is what stops every instruction but HALT; the log only
grows under a step; and the timer is ticked by the commit and read by nothing else. -/

namespace Sys2Proof.Machine

/-! ## The fatal path -/

/-- The kinds that an instruction raises as a fatal error (60_exceptions.md R110). A malformed HALT logs its own kind
without the fatal path (43_control.md R101). -/
def fatalKinds : List EntryKind := [.moveForm, .addOverflow, .reserved6, .rotateForm, .unrecognized]

/-- A rule with a fatal case and a completing one stops in the fatal case only. -/
theorem raiseFatal_of_fatal_or_next_stop {s t : State} {bad : Bool} {kind : EntryKind}
    (h : (if bad then raiseFatal kind s else ⟨.next, t⟩ : Ruled).outcome = .stop) :
    (if bad then raiseFatal kind s else ⟨.next, t⟩ : Ruled) = raiseFatal kind s := by
  cases bad with
  | true => rfl
  | false => cases h

theorem beqRule_outcome_ne_stop (reg : Nibble) (xy : Byte) (s : State) : (beqRule reg xy s).outcome ≠ .stop := by
  unfold beqRule
  split <;> exact RuleOutcome.noConfusion

/-- The rule of every instruction but HALT stops by the fatal path only (60_exceptions.md R114). -/
theorem ruleOf_eq_raiseFatal_of_stop {i : Instr} {s : State} (hstop : (ruleOf i s).outcome = .stop)
    (hhalt : i ≠ .halt) (hmalformed : ∀ reg xy, i ≠ .haltMalformed reg xy) :
    ∃ k ∈ fatalKinds, ruleOf i s = raiseFatal k s := by
  cases i with
  | halt => exact absurd rfl hhalt
  | haltMalformed reg xy => exact absurd rfl (hmalformed reg xy)
  | move | moveIllegal => exact ⟨.moveForm, by decide, raiseFatal_of_fatal_or_next_stop hstop⟩
  | add => exact ⟨.addOverflow, by decide, raiseFatal_of_fatal_or_next_stop hstop⟩
  | ror | rorIllegal => exact ⟨.rotateForm, by decide, raiseFatal_of_fatal_or_next_stop hstop⟩
  | reserved6 => exact ⟨.reserved6, by decide, rfl⟩
  | unrecognized0 | unrecognizedD | unrecognizedE | unrecognizedF => exact ⟨.unrecognized, by decide, rfl⟩
  | beq reg xy => exact absurd hstop (beqRule_outcome_ne_stop reg xy s)
  | load | loadi | store | or | and | xor => cases hstop

/-- An instruction that stops a running machine has a rule that ended in `stop`. -/
theorem ruleOf_outcome_of_exec_stopped {i : Instr} {s t : State} (hrunning : s.execState = .running)
    (h : exec i s = .next t) (hstopped : t.execState = .stopped) : (ruleOf i s).outcome = .stop := by
  rw [exec_eq_runRule, runRule_eq] at h
  cases h
  by_contra hne
  have hkept := ruleOf_stopsOrKeeps i s
  rw [StopsOrKeeps, if_neg hne, ← commit_execState s.pc, hstopped, hrunning] at hkept
  cases hkept

/-- Settles O28: the path itself is `raiseFatal_eq`, and an instruction that stops a running machine ended in `stop`, which
but for HALT is a fatal error (`ruleOf_eq_raiseFatal_of_stop`). -/
theorem fatalPathLogsOnceAndStops : Obligations.FatalPathLogsOnceAndStops := by
  unfold Obligations.FatalPathLogsOnceAndStops
  refine ⟨fun k s => ⟨rfl, rfl, rfl, ?_⟩, fun i s t hrunning hexec hstopped hhalt hmalformed => ?_⟩
  · rw [runRule_eq, raiseFatal_eq, commit_stop]
  · obtain ⟨k, hk, hrule⟩ :=
      ruleOf_eq_raiseFatal_of_stop (ruleOf_outcome_of_exec_stopped hrunning hexec hstopped) hhalt hmalformed
    refine ⟨k, hk, ?_⟩
    rw [← hexec, exec_eq_runRule, runRule_eq, runRule_eq, hrule]

/-! ## The log under the shared operations and the rules -/

/-- The log of `s` with entries appended, and its dirty flag still set if it was, are those of `t` (60_exceptions.md
R113). -/
def LogGrows (s t : State) : Prop := (∃ es, t.log = s.log ++ es) ∧ (s.dirty = true → t.dirty = true)

theorem logGrows_of_eq {s t : State} (hlog : t.log = s.log) (hdirty : t.dirty = s.dirty) : LogGrows s t :=
  ⟨⟨[], by rw [hlog, List.append_nil]⟩, fun h => hdirty.trans h⟩

theorem LogGrows.trans {s t u : State} (hst : LogGrows s t) (htu : LogGrows t u) : LogGrows s u := by
  obtain ⟨⟨es, hes⟩, hdirty⟩ := hst
  obtain ⟨⟨fs, hfs⟩, hdirty'⟩ := htu
  exact ⟨⟨es ++ fs, by rw [hfs, hes, List.append_assoc]⟩, fun h => hdirty' (hdirty h)⟩

theorem logGrows_withEntries (s : State) (es : List LogEntry) : LogGrows s (withEntries s es) :=
  ⟨⟨es, rfl⟩, fun h => by rw [withEntries, h, Bool.true_or]⟩

theorem logGrows_memRead (a : Nat) (s : State) : LogGrows s (memRead a s).2 := by
  rw [memRead_eq]
  exact logGrows_withEntries s _

theorem logGrows_memWrite (a : Nat) (v : Byte) (s : State) : LogGrows s (memWrite a v s) := by
  by_cases ha : a < memCells
  · rw [memWrite_of_lt a v s ha]
    exact logGrows_of_eq (setCell_log ..) (setCell_dirty ..)
  · rw [memWrite_of_ge a v s (Nat.le_of_not_lt ha)]
    exact logGrows_withEntries s _

theorem logGrows_writeReg (s : State) (r : Nibble) (v : Byte) : LogGrows s (writeReg s r v) :=
  logGrows_of_eq (writeReg_log ..) (writeReg_dirty ..)

theorem logGrows_raiseFatal (k : EntryKind) (s : State) : LogGrows s (raiseFatal k s).state :=
  ⟨⟨_, rfl⟩, fun _ => rfl⟩

/-- A rule with a fatal case and a completing one. -/
theorem logGrows_fatal_or_next {s t : State} (bad : Bool) (kind : EntryKind) (h : LogGrows s t) :
    LogGrows s (if bad then raiseFatal kind s else ⟨.next, t⟩ : Ruled).state := by
  split
  · exact logGrows_raiseFatal kind s
  · exact h

theorem logGrows_loadRule (reg : Nibble) (xy : Byte) (s : State) : LogGrows s (loadRule reg xy s).state := by
  have hpointer := logGrows_memRead (directAddr xy) s
  exact (hpointer.trans (logGrows_memRead _ _)).trans (logGrows_writeReg _ _ _)

theorem logGrows_beqRule (reg : Nibble) (xy : Byte) (s : State) : LogGrows s (beqRule reg xy s).state := by
  unfold beqRule
  split <;> exact logGrows_of_eq rfl rfl

theorem logGrows_haltRule (reg : Nibble) (xy : Byte) (s : State) : LogGrows s (haltRule reg xy s).state := by
  unfold haltRule
  split
  · exact logGrows_raiseFatal .haltForm s
  · exact logGrows_of_eq rfl rfl

/-- No rule removes an entry or clears the dirty flag (60_exceptions.md R113). -/
theorem logGrows_ruleOf (i : Instr) (s : State) : LogGrows s (ruleOf i s).state := by
  cases i with
  | load reg xy => exact logGrows_loadRule reg xy s
  | store => exact logGrows_memWrite _ _ s
  | beq reg xy => exact logGrows_beqRule reg xy s
  | halt => exact logGrows_haltRule 0 0 s
  | haltMalformed reg xy => exact logGrows_haltRule reg xy s
  | move | moveIllegal | add | ror | rorIllegal => exact logGrows_fatal_or_next _ _ (logGrows_writeReg s _ _)
  | loadi | or | and | xor => exact logGrows_writeReg s _ _
  | reserved6 | unrecognized0 | unrecognizedD | unrecognizedE | unrecognizedF => exact logGrows_raiseFatal _ s

/-! ## The log under a step and a host command -/

@[simp] theorem commit_log (pc0 : Byte) (r : Ruled) : (commit pc0 r).log = r.state.log := by
  obtain ⟨outcome, s⟩ := r
  cases outcome <;> rfl

@[simp] theorem commit_dirty (pc0 : Byte) (r : Ruled) : (commit pc0 r).dirty = r.state.dirty := by
  obtain ⟨outcome, s⟩ := r
  cases outcome <;> rfl

theorem logGrows_step {s t : State} (h : step s = .next t) : LogGrows s t := by
  rw [step_eq_commit] at h
  cases h
  have hfetch : LogGrows s (afterFetch s) := logGrows_withEntries s _
  exact (hfetch.trans (logGrows_ruleOf _ _)).trans (logGrows_of_eq (commit_log ..) (commit_dirty ..))

/-- No host command but the two resets, run and clear removes an entry or clears the dirty flag (60_exceptions.md
R113). -/
theorem logGrows_hostCommand {c : HostCommand} {s t : State} (hsoft : c ≠ .softReset) (hfull : c ≠ .fullReset)
    (hrun : c ≠ .run) (hclear : c ≠ .clearDirty) (h : hostCommand c s = .next t) : LogGrows s t := by
  cases c with
  | softReset => exact absurd rfl hsoft
  | fullReset => exact absurd rfl hfull
  | run => exact absurd rfl hrun
  | clearDirty => exact absurd rfl hclear
  | debugStep => exact logGrows_step h
  | tick =>
    cases hs : s.execState with
    | running =>
      rw [hostCommand_tick_of_running hs] at h
      exact logGrows_step h
    | stopped =>
      rw [hostCommand_tick_of_stopped hs] at h
      cases h
  | editCell | setTimer | setCounter =>
    simp only [hostCommand] at h
    split at h
    · cases h
      exact logGrows_of_eq rfl rfl
    · cases h
  | forceStop =>
    cases h
    exact logGrows_of_eq (stopMachine_log s) (stopMachine_dirty s)

theorem hostCommand_clearDirty (s : State) : hostCommand .clearDirty s = .next { s with dirty := false } := rfl

/-- Settles O43: the step by the case split over the instructions' rules (`logGrows_ruleOf`), the host by its commands,
where the clear command is the one that keeps the log and not the flag. -/
theorem logOnlyGrowsUntilReset : Obligations.LogOnlyGrowsUntilReset := by
  unfold Obligations.LogOnlyGrowsUntilReset
  refine ⟨fun s t => logGrows_step, fun c s t hsoft hfull hrun h => ?command, fun s => ?cleared⟩
  case command =>
    by_cases hclear : c = .clearDirty
    · rw [hclear, hostCommand_clearDirty] at h
      cases h
      exact ⟨⟨[], (List.append_nil _).symm⟩, fun hne => absurd hclear hne⟩
    · obtain ⟨hlog, hdirty⟩ := logGrows_hostCommand hsoft hfull hrun hclear h
      exact ⟨hlog, fun _ => hdirty⟩
  case cleared =>
    exact ⟨⟨_, hostCommand_clearDirty s, rfl⟩, softReset_log s, softReset_dirty s, fullReset_log s, fullReset_dirty s,
      _, runCommand_log s⟩

/-! ## The timer -/

/-- Settles O40: `timerTick_toNat` gives the value as a truncated difference of natural numbers. -/
theorem timerTickIsFlooredDecrement : Obligations.TimerTickIsFlooredDecrement := by
  unfold Obligations.TimerTickIsFlooredDecrement
  intro s
  refine ⟨?_, rfl⟩
  rw [timerTick_toNat]
  omega

/-- The state with its timer replaced. -/
def withTimer (s : State) (v : HalfWord) : State := { s with timer := v }

/-- What a rule returns, with the timer it was run with replaced. -/
def Ruled.withTimer (r : Ruled) (v : HalfWord) : Ruled := ⟨r.outcome, Machine.withTimer r.state v⟩

theorem withTimer_restored (s : State) (v : HalfWord) : { withTimer s v with timer := s.timer } = s := rfl

theorem memWrite_withTimer (a : Nat) (v : Byte) (s : State) (w : HalfWord) :
    memWrite a v (withTimer s w) = withTimer (memWrite a v s) w := by
  by_cases ha : a < memCells
  · rw [memWrite_of_lt _ _ _ ha, memWrite_of_lt _ _ _ ha]
    rfl
  · have hge := Nat.le_of_not_lt ha
    rw [memWrite_of_ge _ _ _ hge, memWrite_of_ge _ _ _ hge]
    rfl

/-- A rule with a fatal case and a completing one. -/
theorem fatal_or_next_withTimer (bad : Bool) (kind : EntryKind) (s t : State) (v : HalfWord) :
    (if bad then raiseFatal kind (withTimer s v) else ⟨.next, withTimer t v⟩ : Ruled) =
      Ruled.withTimer (if bad then raiseFatal kind s else ⟨.next, t⟩) v := by
  cases bad <;> rfl

theorem loadRule_withTimer (reg : Nibble) (xy : Byte) (s : State) (v : HalfWord) :
    loadRule reg xy (withTimer s v) = (loadRule reg xy s).withTimer v := by
  simp only [loadRule, indirectOperand, memRead_eq]
  rfl

theorem storeRule_withTimer (reg : Nibble) (xy : Byte) (s : State) (v : HalfWord) :
    storeRule reg xy (withTimer s v) = (storeRule reg xy s).withTimer v := by
  rw [storeRule, memWrite_withTimer]
  rfl

theorem beqRule_withTimer (reg : Nibble) (xy : Byte) (s : State) (v : HalfWord) :
    beqRule reg xy (withTimer s v) = (beqRule reg xy s).withTimer v := by
  have hcond : branchHolds (withTimer s v) reg = branchHolds s reg := rfl
  rw [beqRule, beqRule, hcond]
  split <;> rfl

theorem haltRule_withTimer (reg : Nibble) (xy : Byte) (s : State) (v : HalfWord) :
    haltRule reg xy (withTimer s v) = (haltRule reg xy s).withTimer v := by
  rw [haltRule, haltRule]
  split <;> rfl

/-- No rule reads or writes the timer: run with another timer, it returns the same with that timer (60_exceptions.md
R125). -/
theorem ruleOf_withTimer (i : Instr) (s : State) (v : HalfWord) :
    ruleOf i (withTimer s v) = (ruleOf i s).withTimer v := by
  cases i with
  | load reg xy => exact loadRule_withTimer reg xy s v
  | store reg xy => exact storeRule_withTimer reg xy s v
  | beq reg xy => exact beqRule_withTimer reg xy s v
  | halt => exact haltRule_withTimer 0 0 s v
  | haltMalformed reg xy => exact haltRule_withTimer reg xy s v
  | move | ror =>
    simp only [ruleOf, moveRule_zero, rorRule_zero]
    rfl
  | moveIllegal | add | rorIllegal => exact fatal_or_next_withTimer _ _ s (writeReg s _ _) v
  | loadi | or | and | xor => rfl
  | reserved6 | unrecognized0 | unrecognizedD | unrecognizedE | unrecognizedF => rfl

/-- The commit of a rule returned with another timer differs in the timer only, and ticks a timer at 0 to 0. -/
theorem commit_withTimer (pc0 : Byte) (r : Ruled) (v : HalfWord) :
    ∃ w, commit pc0 (r.withTimer v) = withTimer (commit pc0 r) w ∧ (v = 0 → w = 0) := by
  have hzero : v = 0 → BitVec.ofNat 16 (v.toNat - 1) = 0 := by
    rintro rfl
    rfl
  obtain ⟨outcome, s⟩ := r
  cases outcome with
  | next | taken => exact ⟨BitVec.ofNat 16 (v.toNat - 1), rfl, hzero⟩
  | stop => exact ⟨v, rfl, id⟩

/-- The step from the state with another timer commits what the same rule returned, with that timer. -/
theorem step_withTimer (s : State) (v : HalfWord) :
    step (withTimer s v) = .next (commit s.pc
      ((ruleOf (decode (fetchedOpcode s) (fetchedOperand s)) (afterFetch s)).withTimer v)) := by
  have hpc : (withTimer s v).pc = s.pc := rfl
  have hopcode : fetchedOpcode (withTimer s v) = fetchedOpcode s := rfl
  have hoperand : fetchedOperand (withTimer s v) = fetchedOperand s := rfl
  have hfetch : afterFetch (withTimer s v) = withTimer (afterFetch s) v := rfl
  rw [step_eq_commit, hpc, hopcode, hoperand, hfetch, ruleOf_withTimer]

/-- Settles O38: the two steps run the same rule, which returns the same but for the timer (`ruleOf_withTimer`), and their
commits differ in the timer only (`commit_withTimer`). -/
theorem timerHasNoEffectOnSteps : Obligations.TimerHasNoEffectOnSteps := by
  unfold Obligations.TimerHasNoEffectOnSteps
  intro s t v h
  rw [step_eq_commit] at h
  cases h
  obtain ⟨w, hcommit, hzero⟩ := commit_withTimer s.pc _ v
  exact ⟨_, (step_withTimer s v).trans (congrArg _ hcommit), withTimer_restored _ w, hzero⟩

end Sys2Proof.Machine
end

section
/-! The family of the resets and the host's commands (70_reset_and_hazards.md). A full reset is the creation of the block,
a host edit touches one field, and the debug step changes the execution state only where the fetched bytes stop it. -/

namespace Sys2Proof.Machine

/-! ## The fetched bytes of a stop -/

theorem regOf_div (b : Byte) : regOf (b.toNat / 16) = hiField b := by
  rw [regOf, ← hiField_toNat, BitVec.ofNat_toNat, BitVec.setWidth_eq]

theorem regOf_mod (b : Byte) : regOf (b.toNat % 16) = loField b := by
  rw [regOf, ← loField_toNat, BitVec.ofNat_toNat, BitVec.setWidth_eq]

theorem stopsOn_of_illegalRow {b1 b2 : Byte} {k : EntryKind} (s : State) (h : IllegalRow b1 b2 k) : stopsOn s b1 b2 :=
  .inr (.inl (Option.isSome_iff_exists.mpr ⟨k, (illegalKind_eq_some_iff b1 b2 k).mpr h⟩))

theorem decode_of_opcode_four_of_reg_zero {b1 : Byte} (b2 : Byte) (h : b1.toNat / 16 = 4) (hreg : b1.toNat % 16 = 0) :
    decode b1 b2 = .move (hiField b2) (loField b2) := by
  have hreg0 : regField b1 = 0 := BitVec.eq_of_toNat_eq ((regField_toNat b1).trans hreg)
  rw [decode_of_opcode b2 h, decode_append]
  exact if_pos hreg0

theorem decode_of_opcode_five {b1 : Byte} (b2 : Byte) (h : b1.toNat / 16 = 5) :
    decode b1 b2 = .add (regField b1) (hiField b2) (loField b2) := by
  rw [decode_of_opcode b2 h, decode_append]
  rfl

theorem decode_of_opcode_ten_of_hi_zero {b1 b2 : Byte} (h : b1.toNat / 16 = 10) (hhi : b2.toNat / 16 = 0) :
    decode b1 b2 = .ror (regField b1) (loField b2) := by
  have hhi0 : hiField b2 = 0 := BitVec.eq_of_toNat_eq ((hiField_toNat b2).trans hhi)
  rw [decode_of_opcode b2 h, decode_append]
  exact if_pos hhi0

theorem sum_gt_of_addRule_stop {reg hi lo : Nibble} {s : State} (h : (addRule reg hi lo s).outcome = .stop) :
    (readReg s hi).toNat + (readReg s lo).toNat > 255 := by
  by_contra hle
  rw [addRule_of_le reg (Nat.le_of_not_lt hle)] at h
  cases h

/-- The rule of a decoded instruction ends in `stop` only where the two bytes are a HALT, an illegal encoding or an ADD
that overflows (60_exceptions.md R132). -/
theorem stopsOn_of_ruleOf_decode_stop {b1 b2 : Byte} {s : State} (h : (ruleOf (decode b1 b2) s).outcome = .stop) :
    stopsOn s b1 b2 := by
  have hop : b1.toNat / 16 = (Laws.opcodeOf (decode b1 b2)).toNat := by rw [opcodeOf_decode, opField_toNat]
  cases hi : decode b1 b2 <;> rw [hi] at h hop
  case halt | haltMalformed => exact .inl hop
  case unrecognized0 => exact stopsOn_of_illegalRow s (.op0 hop)
  case reserved6 => exact stopsOn_of_illegalRow s (.op6 hop)
  case unrecognizedD => exact stopsOn_of_illegalRow s (.opD hop)
  case unrecognizedE => exact stopsOn_of_illegalRow s (.opE hop)
  case unrecognizedF => exact stopsOn_of_illegalRow s (.opF hop)
  case moveIllegal =>
    refine stopsOn_of_illegalRow s (.op4 hop fun hreg => ?_)
    rw [decode_of_opcode_four_of_reg_zero b2 hop hreg] at hi
    cases hi
  case rorIllegal =>
    refine stopsOn_of_illegalRow s (.opA hop fun hhi => ?_)
    rw [decode_of_opcode_ten_of_hi_zero hop hhi] at hi
    cases hi
  case add =>
    rw [decode_of_opcode_five b2 hop] at hi
    cases hi
    rw [stopsOn, regOf_div, regOf_mod]
    exact .inr (.inr ⟨hop, sum_gt_of_addRule_stop h⟩)
  case beq reg xy => exact absurd h (beqRule_outcome_ne_stop reg xy s)
  case load | loadi | store | move | or | and | xor | ror => cases h

/-! ## The debug step -/

theorem hostCommand_debugStep (s : State) : hostCommand .debugStep s = step s := rfl

/-- A step that changes the execution state has set it to Stopped, by an instruction that stops the machine. -/
theorem step_stopped_of_execState_ne {s t : State} (h : step s = .next t) (hne : t.execState ≠ s.execState) :
    t.execState = .stopped ∧ stopsOn s (fetchedOpcode s) (fetchedOperand s) := by
  have hexec := step_execState h
  split at hexec
  · rename_i hstop
    -- the registers that ADD adds are the same before and after the fetch, which appends entries only
    have hfetched : stopsOn (afterFetch s) (fetchedOpcode s) (fetchedOperand s) := stopsOn_of_ruleOf_decode_stop hstop
    exact ⟨hexec, hfetched⟩
  · exact absurd hexec hne

/-- Settles O52: the debug step is the step, which changes the execution state only where the rule of the fetched
instruction ends in `stop` (`stopsOn_of_ruleOf_decode_stop`). -/
theorem debugStepRunsExactlyOneStep : Obligations.DebugStepRunsExactlyOneStep := by
  unfold Obligations.DebugStepRunsExactlyOneStep
  exact fun s => ⟨hostCommand_debugStep s, fun _ => step_stopped_of_execState_ne⟩

/-! ## The host's edits -/

/-- The host's writes of the timer and of the counter, where admitted, log nothing and keep the execution state
(70_reset_and_hazards.md R149). -/
theorem controlKept_of_setTimer_or_setCounter {v : Nat} {s t : State}
    (h : hostCommand (.setTimer v) s = .next t ∨ hostCommand (.setCounter v) s = .next t) : controlKept s t := by
  obtain h | h := h
  all_goals
    simp only [hostCommand] at h
    split at h
    · cases h
      exact ⟨rfl, rfl, rfl⟩
    · cases h

/-- Settles O51: an admitted edit answers `setCell`, whose laws are the clauses, and the writes of timer and counter
each replace one field that is none of the three (`controlKept_of_setTimer_or_setCounter`). -/
theorem hostEditsStoreAnyTextSilently : Obligations.HostEditsStoreAnyTextSilently := by
  unfold Obligations.HostEditsStoreAnyTextSilently
  intro s a v x hwf
  refine ⟨fun ha => ?edit, fun t h => ?write⟩
  case edit =>
    exact ⟨setCell s a x, hostCommand_editCell_of_lt x s (Nat.lt_succ_of_le ha),
      Memory.read_write_self_of_wf s.mem a x hwf, fun c => cellText_setCell_other s a c x, rfl⟩
  case write =>
    obtain ⟨hexec, hlog, hdirty⟩ := controlKept_of_setTimer_or_setCounter h
    exact ⟨hlog, hdirty, hexec⟩

/-! ## Full reset -/

/-- Full reset leaves nothing of the state it finds: it is the creation of the block (70_reset_and_hazards.md R134,
R136). -/
theorem fullReset_eq_reset (s : State) : fullReset s = State.reset := rfl

theorem readReg_of_regs_zero {s : State} (h : s.regs = Vector.replicate 16 0) (q : Nibble) : readReg s q = 0 := by
  simp only [readReg, h, Vector.getElem_replicate]

theorem cellText_of_mem_nil {s : State} (h : s.mem = []) (a : Nat) : cellText s a = blank := by
  rw [cellText, h, Memory.read_nil]

/-- Settles O47: both resets leave the one state of creation (`fullReset_eq_reset`), and the other clauses read off the
fields that a full reset sets. -/
theorem fullResetIsIdempotent : Obligations.FullResetIsIdempotent := by
  unfold Obligations.FullResetIsIdempotent
  intro s
  refine ⟨rfl, ?idempotent, cellText_of_mem_nil (fullReset_mem s), fullReset_pc s,
    readReg_of_regs_zero (fullReset_regs s), ?timer, fullReset_log s, fullReset_execState s⟩
  case idempotent => rw [fullReset_eq_reset, fullReset_eq_reset]
  case timer =>
    rw [fullReset_timer]
    rfl

end Sys2Proof.Machine
end

section
/-! The two directions of the encoding (30_encoding.md R55, R56, R60). An instruction decodes back from the bytes that encode
it, and every pair of bytes is the encoding of the well-formed instruction it decodes to. -/

namespace Sys2Proof.Machine

/-! ## Decoding an encoding -/

theorem decode_load (reg : Nibble) (xy : Byte) : decode (0x1#4 ++ reg) xy = .load reg xy := by
  rw [decode_append]
  rfl

theorem decode_store (reg : Nibble) (xy : Byte) : decode (0x3#4 ++ reg) xy = .store reg xy := by
  rw [decode_append]
  rfl

theorem decode_beq (reg : Nibble) (xy : Byte) : decode (0xB#4 ++ reg) xy = .beq reg xy := by
  rw [decode_append]
  rfl

theorem decode_halt : decode (0xC#4 ++ 0x0#4) 0x00 = .halt := by
  rw [decode_append]
  rfl

/-- Of the two bytes of format any, the twelve bits below the opcode are the rest field (30_encoding.md R56). -/
theorem restField_encodeAny (op : Nibble) (rest : BitVec 12) :
    restField (encodeAny op rest).1 (encodeAny op rest).2 = rest := by
  rw [encodeAny, restField, regField_append, rest_split]

theorem opcode_encodeAny (op : Nibble) (rest : BitVec 12) : (encodeAny op rest).1.toNat / 16 = op.toNat :=
  nibbles_div _ _

/-- A HALT with a field that is not 0 is what well-formedness asks of a malformed one. -/
theorem wellFormed_haltMalformed_iff (reg : Nibble) (xy : Byte) :
    (Instr.haltMalformed reg xy).wellFormed = true ↔ reg ≠ 0 ∨ xy ≠ 0 := by
  rw [Instr.wellFormed, Bool.or_eq_true, bne_iff_ne, bne_iff_ne]

theorem decode_encode (i : Instr) (h : i.wellFormed = true) : decode (encode i).1 (encode i).2 = i := by
  cases i with
  | load reg xy => exact decode_load reg xy
  | loadi reg xy => exact decode_loadi reg xy
  | store reg xy => exact decode_store reg xy
  | move hi lo => exact decode_move hi lo
  | moveIllegal reg hi lo => exact decode_move_of_ne hi lo (bne_iff_ne.mp h)
  | add reg hi lo => exact decode_add reg hi lo
  | or reg hi lo => exact decode_or reg hi lo
  | and reg hi lo => exact decode_and reg hi lo
  | xor reg hi lo => exact decode_xor reg hi lo
  | ror reg lo => exact decode_ror reg lo
  | rorIllegal reg hi lo => exact decode_ror_of_ne reg lo (bne_iff_ne.mp h)
  | beq reg xy => exact decode_beq reg xy
  | halt => exact decode_halt
  | haltMalformed reg xy => exact decode_halt_of_ne ((wellFormed_haltMalformed_iff reg xy).mp h)
  | reserved6 rest =>
    rw [encode, decode_of_opcode_six _ (opcode_encodeAny _ rest), restField_encodeAny]
  | unrecognized0 rest =>
    rw [encode, decode_of_opcode_zero _ (opcode_encodeAny _ rest), restField_encodeAny]
  | unrecognizedD rest =>
    rw [encode, decode_of_opcode_thirteen _ (opcode_encodeAny _ rest), restField_encodeAny]
  | unrecognizedE rest =>
    rw [encode, decode_of_opcode_fourteen _ (opcode_encodeAny _ rest), restField_encodeAny]
  | unrecognizedF rest =>
    rw [encode, decode_of_opcode_fifteen _ (opcode_encodeAny _ rest), restField_encodeAny]

/-- Settles O1, by the forms: each row of the opcode map decodes what its format encodes (`decode_encode`). -/
theorem decodeOfEncodeIsIdentity : Obligations.DecodeOfEncodeIsIdentity := by
  unfold Obligations.DecodeOfEncodeIsIdentity
  exact decode_encode

/-- Settles O4: each of the words is the encoding of the well-formed instruction it stands for. -/
theorem printedWordsDecode : Obligations.PrintedWordsDecode := by
  unfold Obligations.PrintedWordsDecode
  exact ⟨decode_encode (.load 1 0x10) rfl, decode_encode (.loadi 1 0x05) rfl, decode_encode (.store 3 0x20) rfl,
    decode_encode (.move 1 2) rfl, decode_encode (.moveIllegal 0xF 1 2) rfl, decode_encode (.add 3 1 2) rfl,
    decode_encode (.reserved6 0x000) rfl, decode_encode (.or 5 3 4) rfl, decode_encode (.and 3 1 2) rfl,
    decode_encode (.xor 4 1 2) rfl, decode_encode (.ror 1 4) rfl, decode_encode (.rorIllegal 1 1 0) rfl,
    decode_encode (.beq 1 0x0C) rfl, decode_encode .halt rfl, decode_encode (.haltMalformed 1 0x01) rfl,
    decode_encode (.unrecognized0 0x000) rfl, decode_encode (.unrecognizedD 0x555) rfl⟩

/-! ## Encoding what was decoded -/

/-- Format any splits the twelve bits back into the register nibble and the operand byte. -/
theorem encodeAny_append (op r : Nibble) (b2 : Byte) : encodeAny op (r ++ b2) = (op ++ r, b2) := by
  have hreg : (r ++ b2 : BitVec 12).extractLsb' 8 4 = r := BitVec.extractLsb'_append_eq_left
  have hoperand : (r ++ b2 : BitVec 12).extractLsb' 0 8 = b2 := BitVec.extractLsb'_append_eq_right
  rw [encodeAny, hreg, hoperand]

/-- A pair of bytes is the well-formed encoding of the instruction: the converse of decoding it. -/
def EncodedBy (b1 b2 : Byte) (i : Instr) : Prop := i.wellFormed = true ∧ encode i = (b1, b2)

theorem encodedBy_decode_append (o r h l : Nibble) : EncodedBy (o ++ r) (h ++ l) (decode (o ++ r) (h ++ l)) := by
  rw [decode_append, hiField_append, loField_append]
  split
  all_goals
    rename_i h3 h2 h1 h0
    obtain rfl := (nibble_eq_ofNat_bits o).trans (by rw [h3, h2, h1, h0])
  case h_1 | h_7 | h_14 | h_15 | h_16 => exact ⟨rfl, encodeAny_append _ r _⟩
  case h_5 =>
    split_ifs with hreg
    · exact hreg ▸ ⟨rfl, rfl⟩
    · exact ⟨bne_iff_ne.mpr hreg, rfl⟩
  case h_11 =>
    split_ifs with hhi
    · exact hhi ▸ ⟨rfl, rfl⟩
    · exact ⟨bne_iff_ne.mpr hhi, rfl⟩
  case h_13 =>
    split_ifs with hzero
    · obtain ⟨hreg, hxy⟩ := hzero
      rw [hreg, hxy]
      exact ⟨rfl, rfl⟩
    · exact ⟨(wellFormed_haltMalformed_iff _ _).mpr (not_and_or.mp hzero), rfl⟩
  all_goals exact ⟨rfl, rfl⟩

theorem encodedBy_decode (b1 b2 : Byte) : EncodedBy b1 b2 (decode b1 b2) := by
  obtain ⟨o, r, rfl⟩ := byte_eq_nibbles b1
  obtain ⟨h, l, rfl⟩ := byte_eq_nibbles b2
  exact encodedBy_decode_append o r h l

/-- Settles O2, by the rows of the opcode map (`encodedBy_decode_append`): in each, the bytes are put together again from
the fields that were read off. -/
theorem encodeOfDecodeIsIdentity : Obligations.EncodeOfDecodeIsIdentity := by
  unfold Obligations.EncodeOfDecodeIsIdentity
  exact encodedBy_decode

/-! ## The table word of an encoding -/

theorem tableWord_encodeWord (i : Instr) : tableWord 16 (encodeWord i).toNat = encodeWord i := by
  rw [tableWord, Nat.mod_eq_of_lt (encodeWord i).isLt, BitVec.ofNat_toNat, BitVec.setWidth_eq]

theorem tableOpcodeByte_encodeWord (i : Instr) : tableOpcodeByte 16 (encodeWord i).toNat = (encode i).1 := by
  rw [tableOpcodeByte, tableWord_encodeWord]
  exact BitVec.extractLsb'_append_eq_left

theorem tableOperandByte_encodeWord (i : Instr) : tableOperandByte 16 (encodeWord i).toNat = (encode i).2 := by
  rw [tableOperandByte, tableWord_encodeWord]
  exact BitVec.extractLsb'_append_eq_right

theorem decodeTableWord_encodeWord {i : Instr} (h : i.wellFormed = true) :
    decodeTableWord 16 (encodeWord i).toNat = some i := by
  rw [decodeTableWord, if_pos (Nat.le_refl 16), tableOpcodeByte_encodeWord, tableOperandByte_encodeWord,
    decode_encode i h]

end Sys2Proof.Machine
end

section
/-! The invariant of the block (10_state.md sections 4 and 5, 60_exceptions.md R110). What a rule can leave is one of six
states; each of them, the fetch, the commit and the host's commands keep the invariant, so every schedule does. The same
six states bound what one step appends to the log (40_step_cycle.md section 5). -/

namespace Sys2Proof.Machine

/-! ## What a rule can leave -/

/-- At most `n` entries, each of a failed read of an address that a byte names or of the one after it. -/
def ReadFailures (n : Nat) (es : List LogEntry) : Prop :=
  es.length ≤ n ∧ ∀ e ∈ es, ∃ a ≤ memCells + 1, e = logEntry .error .decodeError a

theorem byte_le (b : Byte) : b.toNat ≤ memCells := Nat.le_of_lt_succ b.isLt

theorem readFailures_nil (n : Nat) : ReadFailures n [] := ⟨Nat.zero_le n, fun _ he => absurd he List.not_mem_nil⟩

theorem readFailures_readErrors (s : State) {a : Nat} (ha : a ≤ memCells + 1) : ReadFailures 1 (readErrors s a) := by
  unfold readErrors
  split
  · exact readFailures_nil 1
  · exact ⟨Nat.le_refl 1, fun e he => ⟨a, ha, List.mem_singleton.mp he⟩⟩

theorem ReadFailures.append {m n : Nat} {es fs : List LogEntry} (hes : ReadFailures m es) (hfs : ReadFailures n fs) :
    ReadFailures (m + n) (es ++ fs) := by
  obtain ⟨hm, hes⟩ := hes
  obtain ⟨hn, hfs⟩ := hfs
  exact ⟨List.length_append ▸ Nat.add_le_add hm hn, fun e he => (List.mem_append.mp he).elim (hes e) (hfs e)⟩

@[simp] theorem readByte_withEntries (s : State) (es : List LogEntry) (a : Nat) :
    readByte (withEntries s es) a = readByte s a := rfl

@[simp] theorem readErrors_withEntries (s : State) (es : List LogEntry) (a : Nat) :
    readErrors (withEntries s es) a = readErrors s a := rfl

/-- The entries of the two reads of LOAD, the intermediate cell's first (41_data_transfer.md R81). -/
def loadErrors (s : State) (xy : Byte) : List LogEntry :=
  readErrors s xy.toNat ++ readErrors s (readByte s xy.toNat).toNat

theorem indirectOperand_eq (xy : Byte) (s : State) :
    indirectOperand xy s = (readByte s (readByte s xy.toNat).toNat, withEntries s (loadErrors s xy)) := by
  simp only [indirectOperand, memRead_eq, directAddr, readByte_withEntries, readErrors_withEntries,
    withEntries_withEntries, loadErrors]

theorem loadRule_eq (reg : Nibble) (xy : Byte) (s : State) : loadRule reg xy s =
    ⟨.next, writeReg (withEntries s (loadErrors s xy)) reg (readByte s (readByte s xy.toNat).toNat)⟩ := by
  rw [loadRule, indirectOperand_eq]

theorem readFailures_loadErrors (s : State) (xy : Byte) : ReadFailures 2 (loadErrors s xy) :=
  (readFailures_readErrors s (Nat.le_succ_of_le (byte_le _))).append
    (readFailures_readErrors s (Nat.le_succ_of_le (byte_le _)))

/-- Everything that the rule of an instruction, run on `s`, can return. A malformed HALT is among the fatal errors, whose
state it leaves (`haltRule_of_ne`). -/
inductive RuleEffect (s : State) : Ruled → Prop where
  | passes : RuleEffect s ⟨.next, s⟩
  | branches (target : Byte) : RuleEffect s ⟨.taken target, s⟩
  | writesReg (r : Nibble) (v : Byte) (es : List LogEntry) (hes : ReadFailures 2 es) :
    RuleEffect s ⟨.next, writeReg (withEntries s es) r v⟩
  | writesCell (a v : Byte) : RuleEffect s ⟨.next, memWrite a.toNat v s⟩
  | stops : RuleEffect s ⟨.stop, stopMachine s⟩
  | fails (k : EntryKind) (hk : k ≠ .runStart) : RuleEffect s ⟨.stop, fatalState s k⟩

theorem ruleEffect_writeReg (s : State) (r : Nibble) (v : Byte) : RuleEffect s ⟨.next, writeReg s r v⟩ := by
  have h := RuleEffect.writesReg (s := s) r v [] (readFailures_nil 2)
  rwa [withEntries_nil] at h

/-- A rule with a fatal case and one that writes a register. -/
theorem ruleEffect_fatal_or_writeReg (s : State) (bad : Bool) (r : Nibble) (v : Byte) {k : EntryKind}
    (hk : k ≠ .runStart) : RuleEffect s (if bad then raiseFatal k s else ⟨.next, writeReg s r v⟩) := by
  split
  · exact .fails k hk
  · exact ruleEffect_writeReg s r v

theorem ruleEffect_moveRule (reg hi lo : Nibble) (s : State) : RuleEffect s (moveRule reg hi lo s) :=
  ruleEffect_fatal_or_writeReg s _ _ _ (k := .moveForm) nofun

theorem ruleEffect_rorRule (reg hi lo : Nibble) (s : State) : RuleEffect s (rorRule reg hi lo s) :=
  ruleEffect_fatal_or_writeReg s _ _ _ (k := .rotateForm) nofun

theorem ruleEffect_beqRule (reg : Nibble) (xy : Byte) (s : State) : RuleEffect s (beqRule reg xy s) := by
  unfold beqRule
  split
  · exact .branches xy
  · exact .passes

theorem ruleEffect_haltRule (reg : Nibble) (xy : Byte) (s : State) : RuleEffect s (haltRule reg xy s) := by
  unfold haltRule
  split
  · exact .fails .haltForm (by decide)
  · exact .stops

theorem ruleEffect_ruleOf (i : Instr) (s : State) : RuleEffect s (ruleOf i s) := by
  cases i with
  | load reg xy =>
    rw [ruleOf, loadRule_eq]
    exact .writesReg reg _ _ (readFailures_loadErrors s xy)
  | store reg xy => exact .writesCell xy _
  | beq reg xy => exact ruleEffect_beqRule reg xy s
  | halt => exact ruleEffect_haltRule 0 0 s
  | haltMalformed reg xy => exact ruleEffect_haltRule reg xy s
  | move hi lo => exact ruleEffect_moveRule 0 hi lo s
  | moveIllegal reg hi lo => exact ruleEffect_moveRule reg hi lo s
  | add => exact ruleEffect_fatal_or_writeReg s _ _ _ (k := .addOverflow) nofun
  | ror reg lo => exact ruleEffect_rorRule reg 0 lo s
  | rorIllegal reg hi lo => exact ruleEffect_rorRule reg hi lo s
  | loadi | or | and | xor => exact ruleEffect_writeReg s _ _
  | reserved6 | unrecognized0 | unrecognizedD | unrecognizedE | unrecognizedF => exact .fails _ nofun

/-! ## The invariant under the shared operations -/

theorem entryOk_logEntry (k : EntryKind) {a : Nat} (ha : a ≤ memCells + 1) :
    entryOk (logEntry (kindSeverity k) k a) := ⟨rfl, rfl, ha⟩

/-- Every kind but RunStart is of severity Error (60_exceptions.md R110). -/
theorem kindSeverity_of_ne_runStart {k : EntryKind} (hk : k ≠ .runStart) : kindSeverity k = .error := by
  cases k with
  | runStart => exact absurd rfl hk
  | _ => rfl

/-- The invariant depends on memory, timer and log alone. -/
theorem inv_of_kept {s t : State} (h : Inv s) (hmem : t.mem = s.mem) (htimer : t.timer = s.timer)
    (hlog : t.log = s.log) : Inv t := by
  rwa [Inv, hmem, htimer, hlog]

theorem inv_withEntries {s : State} {es : List LogEntry} (h : Inv s) (hes : ∀ e ∈ es, entryOk e) :
    Inv (withEntries s es) := by
  obtain ⟨hmem, htimer, hlog⟩ := h
  exact ⟨hmem, htimer, fun e he => (List.mem_append.mp he).elim (hlog e) (hes e)⟩

theorem inv_withEntries_of_readFailures {s : State} {n : Nat} {es : List LogEntry} (h : Inv s)
    (hes : ReadFailures n es) : Inv (withEntries s es) := by
  refine inv_withEntries h fun e he => ?_
  obtain ⟨a, ha, rfl⟩ := hes.2 e he
  exact entryOk_logEntry .decodeError ha

theorem inv_setCell {s : State} {a : Nat} (h : Inv s) (ha : a < memCells) (x : Text) : Inv (setCell s a x) := by
  obtain ⟨hmem, htimer, hlog⟩ := h
  exact ⟨setCell_wf s a x hmem ha, htimer, hlog⟩

theorem inv_memWrite {s : State} (h : Inv s) (a v : Byte) : Inv (memWrite a.toNat v s) := by
  by_cases ha : a.toNat < memCells
  · rw [memWrite_of_lt _ _ _ ha]
    exact inv_setCell h ha _
  · rw [memWrite_of_ge _ _ _ (Nat.le_of_not_lt ha)]
    refine inv_withEntries h fun e he => ?_
    rw [List.mem_singleton.mp he]
    exact entryOk_logEntry .storeOutOfRange (Nat.le_succ_of_le (byte_le a))

theorem inv_fatalState {s : State} {k : EntryKind} (h : Inv s) (hk : k ≠ .runStart) : Inv (fatalState s k) := by
  have hentry : entryOk (logEntry .error k s.pc.toNat) :=
    kindSeverity_of_ne_runStart hk ▸ entryOk_logEntry k (Nat.le_succ_of_le (byte_le s.pc))
  have hlogged : Inv (withEntries s [logEntry .error k s.pc.toNat]) :=
    inv_withEntries h fun e he => List.mem_singleton.mp he ▸ hentry
  exact inv_of_kept hlogged rfl rfl rfl

theorem inv_ruleEffect {s : State} {r : Ruled} (hr : RuleEffect s r) (h : Inv s) : Inv r.state := by
  cases hr with
  | passes | branches => exact h
  | writesReg r v es hes => exact inv_of_kept (inv_withEntries_of_readFailures h hes) rfl rfl rfl
  | writesCell a v => exact inv_memWrite h a v
  | stops => exact inv_of_kept h rfl rfl rfl
  | fails k hk => exact inv_fatalState h hk

theorem inv_timerTick {s : State} (h : Inv s) : Inv (timerTick s) := by
  obtain ⟨hmem, htimer, hlog⟩ := h
  refine ⟨hmem, ?_, hlog⟩
  rw [timerTick_toNat]
  exact Nat.le_trans (Nat.sub_le _ _) htimer

theorem inv_commit {r : Ruled} (pc0 : Byte) (h : Inv r.state) : Inv (commit pc0 r) := by
  obtain ⟨outcome, s⟩ := r
  cases outcome with
  | next | taken => exact inv_timerTick (inv_of_kept h rfl rfl rfl)
  | stop => exact h

/-! ## The invariant under a step and a schedule -/

/-- The fetch fails at most twice, at the counter and after it. -/
theorem readFailures_fetch (s : State) :
    ReadFailures 2 (readErrors s s.pc.toNat ++ readErrors s (s.pc.toNat + 1)) :=
  (readFailures_readErrors s (Nat.le_succ_of_le (byte_le s.pc))).append
    (readFailures_readErrors s (Nat.succ_le_succ (byte_le s.pc)))

theorem inv_step {s t : State} (h : Inv s) (hstep : step s = .next t) : Inv t := by
  rw [step_eq_commit] at hstep
  cases hstep
  have hfetch : Inv (afterFetch s) := inv_withEntries_of_readFailures h (readFailures_fetch s)
  exact inv_commit s.pc (inv_ruleEffect (ruleEffect_ruleOf _ _) hfetch)

/-- Settles O54: the fetch, each of the six states a rule can leave (`RuleEffect`) and the commit keep the invariant. -/
theorem everyStepKeepsInvariant : Obligations.EveryStepKeepsInvariant := by
  unfold Obligations.EveryStepKeepsInvariant
  exact fun s t => inv_step

theorem timer_ofNat_le {v : Nat} (h : v ≤ max timerReset timerHostMax) :
    (BitVec.ofNat 16 v).toNat ≤ max timerReset timerHostMax := by
  rw [BitVec.toNat_ofNat]
  exact Nat.le_trans (Nat.mod_le _ _) h

/-- Settles O53: memory and log are empty at creation, and the timer is at its reset value. -/
theorem creationMeetsInvariant : Obligations.CreationMeetsInvariant := by
  unfold Obligations.CreationMeetsInvariant
  exact ⟨reset_mem_wf, timer_ofNat_le (Nat.le_max_left _ _), fun _ he => absurd he List.not_mem_nil⟩

theorem inv_softReset {s : State} (h : Inv s) : Inv (softReset s) := by
  obtain ⟨hmem, -, -⟩ := h
  exact ⟨hmem, timer_ofNat_le (Nat.le_max_left _ _), fun _ he => absurd he List.not_mem_nil⟩

theorem inv_runCommand {s : State} (h : Inv s) : Inv (runCommand s) := by
  rw [runCommand, appendLog_eq_withEntries]
  refine inv_withEntries (inv_of_kept (inv_softReset h) rfl rfl rfl) fun e he => ?_
  rw [List.mem_singleton.mp he]
  exact entryOk_logEntry .runStart (Nat.le_succ_of_le (byte_le s.pc))

theorem inv_hostCommand {c : HostCommand} {s t : State} (h : Inv s) (hc : hostCommand c s = .next t) : Inv t := by
  cases c with
  | debugStep => exact inv_step h hc
  | tick =>
    cases hs : s.execState with
    | running => exact inv_step h (hostCommand_tick_of_running hs ▸ hc)
    | stopped =>
      rw [hostCommand_tick_of_stopped hs] at hc
      cases hc
  | editCell a x =>
    simp only [hostCommand] at hc
    split_ifs at hc with ha
    cases hc
    exact inv_setCell h ha x
  | setTimer v =>
    simp only [hostCommand] at hc
    split_ifs at hc with hv
    cases hc
    obtain ⟨hmem, -, hlog⟩ := h
    exact ⟨hmem, timer_ofNat_le (Nat.le_trans hv.2 (Nat.le_max_right _ _)), hlog⟩
  | setCounter v =>
    simp only [hostCommand] at hc
    split_ifs at hc
    cases hc
    exact inv_of_kept h rfl rfl rfl
  | run =>
    cases hc
    exact inv_runCommand h
  | softReset =>
    cases hc
    exact inv_softReset h
  | fullReset =>
    cases hc
    exact creationMeetsInvariant
  | forceStop | clearDirty =>
    cases hc
    exact inv_of_kept h rfl rfl rfl

theorem inv_afterCommand (c : HostCommand) {s : State} (h : Inv s) : Inv (afterCommand c s) := by
  unfold afterCommand
  split
  · exact inv_hostCommand h ‹_›
  · exact h
  · exact h

/-- Settles O55, by induction on the schedule: each command, admitted or refused, keeps the invariant
(`inv_hostCommand`). -/
theorem everyScheduleKeepsInvariant : Obligations.EveryScheduleKeepsInvariant := by
  unfold Obligations.EveryScheduleKeepsInvariant
  intro cs
  induction cs with
  | nil => exact fun s h => h
  | cons c cs ih => exact fun s h => ih (afterCommand c s) (inv_afterCommand c h)

/-! ## The entries of a step -/

/-- At most `n` entries are appended, all of severity Error and none of kind RunStart, and the dirty flag is set exactly
where there is one. -/
def AppendsErrors (n : Nat) (s t : State) : Prop :=
  ∃ es : List LogEntry, t.log = s.log ++ es ∧ es.length ≤ n ∧ (∀ e ∈ es, e.sev = .error ∧ e.kind ≠ .runStart) ∧
    t.dirty = (s.dirty || !es.isEmpty)

theorem appendsErrors_of_kept {s t : State} (n : Nat) (hlog : t.log = s.log) (hdirty : t.dirty = s.dirty) :
    AppendsErrors n s t :=
  ⟨[], by rw [hlog, List.append_nil], Nat.zero_le n, fun _ he => absurd he List.not_mem_nil,
    by rw [hdirty, List.isEmpty_nil, Bool.not_true, Bool.or_false]⟩

theorem AppendsErrors.trans {m n : Nat} {s t u : State} (hst : AppendsErrors m s t) (htu : AppendsErrors n t u) :
    AppendsErrors (m + n) s u := by
  obtain ⟨es, hlog, hm, hes, hdirty⟩ := hst
  obtain ⟨fs, hlog', hn, hfs, hdirty'⟩ := htu
  refine ⟨es ++ fs, ?log, ?length, fun e he => (List.mem_append.mp he).elim (hes e) (hfs e), ?dirty⟩
  case log => rw [hlog', hlog, List.append_assoc]
  case length => exact List.length_append ▸ Nat.add_le_add hm hn
  case dirty =>
    rw [hdirty', hdirty]
    cases es <;> simp

theorem appendsErrors_withEntries {n : Nat} {es : List LogEntry} (s : State) (h : ReadFailures n es) :
    AppendsErrors n s (withEntries s es) := by
  obtain ⟨hlength, hes⟩ := h
  refine ⟨es, rfl, hlength, fun e he => ?_, rfl⟩
  obtain ⟨a, -, rfl⟩ := hes e he
  exact ⟨rfl, nofun⟩

/-- An operation that logs one Error entry of a kind that steps log. -/
theorem appendsErrors_of_one {s t : State} {k : EntryKind} {a : Nat} (n : Nat) (hk : k ≠ .runStart)
    (hlog : t.log = s.log ++ [logEntry .error k a]) (hdirty : t.dirty = true) : AppendsErrors (n + 1) s t := by
  refine ⟨_, hlog, Nat.succ_le_succ (Nat.zero_le n), fun e he => ?_, hdirty.trans (Bool.or_true _).symm⟩
  rw [List.mem_singleton.mp he]
  exact ⟨rfl, hk⟩

theorem appendsErrors_memWrite (a v : Byte) (s : State) : AppendsErrors 2 s (memWrite a.toNat v s) := by
  unfold memWrite
  split
  · exact appendsErrors_of_one 1 (by decide) (appendLog_log ..) (appendLog_dirty ..)
  · exact appendsErrors_of_kept 2 (setCell_log ..) (setCell_dirty ..)

theorem appendsErrors_ruleEffect {s : State} {r : Ruled} (h : RuleEffect s r) : AppendsErrors 2 s r.state := by
  cases h with
  | passes | branches | stops => exact appendsErrors_of_kept 2 rfl rfl
  | writesReg r v es hes =>
    exact (appendsErrors_withEntries s hes).trans (appendsErrors_of_kept 0 (writeReg_log ..) (writeReg_dirty ..))
  | writesCell a v => exact appendsErrors_memWrite a v s
  | fails k hk => exact appendsErrors_of_one 1 hk rfl rfl

/-- Settles O34: the fetch appends at most two entries and the rule at most two (`appendsErrors_ruleEffect`). -/
theorem stepAppendsAtMostFourErrors : Obligations.StepAppendsAtMostFourErrors := by
  unfold Obligations.StepAppendsAtMostFourErrors
  intro s t h
  rw [step_eq_commit] at h
  cases h
  have hfetch : AppendsErrors 2 s (afterFetch s) := appendsErrors_withEntries s (readFailures_fetch s)
  exact (hfetch.trans (appendsErrors_ruleEffect (ruleEffect_ruleOf _ _))).trans
    (appendsErrors_of_kept 0 (commit_log ..) (commit_dirty ..))

end Sys2Proof.Machine
end

section
/-! The Byte Decoder (20_memory.md R33 to R38). Its three parts, the trimming, the mark and the number, are each said once;
together they are the grammar of the texts it accepts, and the canonical text of a byte is in that grammar. -/

namespace Sys2Proof.Machine

/-! ## The characters -/

/-- Settles O6: the ranges that `isWs` tests are the characters of the list. -/
theorem trimmedWhitespaceIsUnicodeSet : Obligations.TrimmedWhitespaceIsUnicodeSet := by
  unfold Obligations.TrimmedWhitespaceIsUnicodeSet
  intro c
  simp only [isWs, Bool.or_eq_true, Bool.and_eq_true, decide_eq_true_eq, beq_iff_eq, List.mem_cons, List.not_mem_nil,
    or_false]
  omega

/-- The characters that a text of base-16 digits consists of (20_memory.md R34). -/
def IsHexText (s : Text) : Prop := ∀ c ∈ s, (hexDigit c).isSome = true

/-- The marks of which at most one is removed (20_memory.md R34). -/
def IsHexMark (s : Text) : Prop := s = [] ∨ s = ['0', 'x'] ∨ s = ['0', 'X']

/-- No character of the text is white space. -/
def NoWs (s : Text) : Prop := ∀ c ∈ s, isWs c = false

theorem hexDigit_isSome_iff (c : Char) : (hexDigit c).isSome = true ↔
    (48 ≤ c.toNat ∧ c.toNat ≤ 57) ∨ (97 ≤ c.toNat ∧ c.toNat ≤ 102) ∨ (65 ≤ c.toNat ∧ c.toNat ≤ 70) := by
  simp only [hexDigit]
  split_ifs <;> simp [*]

theorem isWs_of_hexDigit {c : Char} (h : (hexDigit c).isSome = true) : isWs c = false := by
  rw [hexDigit_isSome_iff] at h
  rw [Bool.eq_false_iff, ne_eq, trimmedWhitespaceIsUnicodeSet c]
  simp only [List.mem_cons, List.not_mem_nil, or_false]
  omega

theorem noWs_mark {mark : Text} (h : IsHexMark mark) : NoWs mark := by
  obtain rfl | rfl | rfl := h
  · exact nofun
  · exact List.forall_mem_cons.mpr ⟨rfl, List.forall_mem_cons.mpr ⟨rfl, nofun⟩⟩
  · exact List.forall_mem_cons.mpr ⟨rfl, List.forall_mem_cons.mpr ⟨rfl, nofun⟩⟩

theorem noWs_mark_append {mark digits : Text} (hmark : IsHexMark mark) (hdigits : IsHexText digits) :
    NoWs (mark ++ digits) := fun c hc =>
  (List.mem_append.mp hc).elim (noWs_mark hmark c) fun hc => isWs_of_hexDigit (hdigits c hc)

/-! ## The trimming -/

theorem dropWhile_isWs {ws s : Text} (rest : Text) (hws : ∀ c ∈ ws, isWs c = true) (hs : NoWs s) (hne : s ≠ []) :
    (ws ++ s ++ rest).dropWhile isWs = s ++ rest := by
  obtain ⟨c, s, rfl⟩ := List.exists_cons_of_ne_nil hne
  have hc : ¬ isWs c = true := Bool.eq_false_iff.mp (hs c List.mem_cons_self)
  rw [List.append_assoc, List.dropWhile_append_of_pos hws, List.cons_append, List.dropWhile_cons_of_neg hc]

/-- Trimming removes white space around a text that has none. -/
theorem trimWs_append {before s after : Text} (hbefore : ∀ c ∈ before, isWs c = true)
    (hafter : ∀ c ∈ after, isWs c = true) (hs : NoWs s) (hne : s ≠ []) : trimWs (before ++ s ++ after) = s := by
  have hend : (after.reverse ++ s.reverse ++ []).dropWhile isWs = s.reverse ++ [] :=
    dropWhile_isWs [] (fun c hc => hafter c (List.mem_reverse.mp hc)) (fun c hc => hs c (List.mem_reverse.mp hc))
      (fun h => hne (List.reverse_eq_nil_iff.mp h))
  rw [List.append_nil, List.append_nil, ← List.reverse_append] at hend
  rw [trimWs, dropWhile_isWs after hbefore hs hne, hend, List.reverse_reverse]

/-- What trimming removes is white space. -/
theorem eq_append_trimWs (t : Text) : ∃ before after : Text, t = before ++ trimWs t ++ after ∧
    (∀ c ∈ before, isWs c = true) ∧ ∀ c ∈ after, isWs c = true := by
  refine ⟨t.takeWhile isWs, (t.dropWhile isWs).rtakeWhile isWs, ?_, fun c => List.mem_takeWhile_imp,
    fun c => List.mem_rtakeWhile_imp⟩
  have htrim : trimWs t = (t.dropWhile isWs).rdropWhile isWs := rfl
  rw [htrim, List.append_assoc, List.rdropWhile_append_rtakeWhile, List.takeWhile_append_dropWhile]

/-! ## The mark and the number -/

theorem eq_append_stripHexMark (s : Text) : ∃ mark : Text, s = mark ++ stripHexMark s ∧ IsHexMark mark := by
  unfold stripHexMark
  split
  · exact ⟨['0', 'x'], rfl, .inr (.inl rfl)⟩
  · exact ⟨['0', 'X'], rfl, .inr (.inr rfl)⟩
  · exact ⟨[], rfl, .inl rfl⟩

/-- A text of digits does not begin with a mark, since `x` and `X` are no digits. -/
theorem stripHexMark_of_isHexText {digits : Text} (h : IsHexText digits) : stripHexMark digits = digits := by
  unfold stripHexMark
  split
  · exact absurd (h 'x' (by simp)) (by decide)
  · exact absurd (h 'X' (by simp)) (by decide)
  · rfl

theorem stripHexMark_append {mark digits : Text} (hmark : IsHexMark mark) (hdigits : IsHexText digits) :
    stripHexMark (mark ++ digits) = digits := by
  obtain rfl | rfl | rfl := hmark
  · exact stripHexMark_of_isHexText hdigits
  · rfl
  · rfl

/-- The number that a text of base-16 digits continues `acc` with, as the spec folds it. -/
def hexValueFrom (acc : Nat) (s : Text) : Nat := s.foldl (fun n c => n * 16 + (hexDigit c).getD 0) acc

theorem hexNumberFrom_eq_some_iff (acc n : Nat) (s : Text) :
    hexNumberFrom acc s = some n ↔ IsHexText s ∧ hexValueFrom acc s = n := by
  induction s generalizing acc with
  | nil => simp [hexNumberFrom, IsHexText, hexValueFrom]
  | cons c s ih =>
    rw [hexNumberFrom]
    cases hc : hexDigit c with
    | none => simp [IsHexText, hc]
    | some d =>
      simp only [ih]
      simp [IsHexText, hexValueFrom, hc]

theorem ofNat_eq_iff_toNat {n : Nat} (v : Byte) (h : n ≤ 255) : BitVec.ofNat 8 n = v ↔ n = v.toNat := by
  rw [← BitVec.toNat_inj, BitVec.toNat_ofNat, Nat.mod_eq_of_lt (Nat.lt_succ_of_le h)]

theorem decodeCell_eq_some_iff (t : Text) (v : Byte) : decodeCell t = some v ↔
    stripHexMark (trimWs t) ≠ [] ∧ hexNumberFrom 0 (stripHexMark (trimWs t)) = some v.toNat := by
  simp only [decodeCell]
  split_ifs with hnil
  · simp [hnil]
  · cases hn : hexNumberFrom 0 (stripHexMark (trimWs t)) with
    | none => simp
    | some n =>
      have hv := v.isLt
      by_cases hbig : n > 255
      · simp [hbig]
        omega
      · simp [hbig, hnil, ofNat_eq_iff_toNat v (Nat.le_of_not_lt hbig)]

/-! ## The grammar -/

/-- Settles O5: a text that decodes is taken apart as the decoder does (`eq_append_trimWs`, `eq_append_stripHexMark`), and
of a text of the grammar the decoder keeps the digits (`trimWs_append`, `stripHexMark_append`). -/
theorem decodeCellMeansHexByteGrammar : Obligations.DecodeCellMeansHexByteGrammar := by
  unfold Obligations.DecodeCellMeansHexByteGrammar
  intro t v
  rw [decodeCell_eq_some_iff, hexNumberFrom_eq_some_iff]
  constructor
  · rintro ⟨hne, hdigits, hvalue⟩
    obtain ⟨before, after, htrim, hbefore, hafter⟩ := eq_append_trimWs t
    obtain ⟨mark, hstrip, hmark⟩ := eq_append_stripHexMark (trimWs t)
    refine ⟨before, mark, stripHexMark (trimWs t), after, ?_, hbefore, hafter, hmark, hne, hdigits, hvalue⟩
    rw [List.append_assoc before, ← hstrip, ← htrim]
  · rintro ⟨before, mark, digits, after, rfl, hbefore, hafter, hmark, hne, hdigits, hvalue⟩
    have htrim : trimWs (before ++ mark ++ digits ++ after) = mark ++ digits := by
      rw [List.append_assoc before]
      exact trimWs_append hbefore hafter (noWs_mark_append hmark hdigits) (List.append_ne_nil_of_right_ne_nil _ hne)
    rw [htrim, stripHexMark_append hmark hdigits]
    exact ⟨hne, hdigits, hvalue⟩

theorem hexDigit_hexChar : ∀ d : Nibble, hexDigit (hexChar d) = some d.toNat := by decide

/-- Settles O7: the canonical text is the mark and two digits, whose value is the byte. -/
theorem canonicalTextDecodesBack : Obligations.CanonicalTextDecodesBack := by
  unfold Obligations.CanonicalTextDecodesBack
  intro v
  have hdigits : IsHexText [hexChar (opField v), hexChar (regField v)] := by
    simp [IsHexText, hexDigit_hexChar]
  have hvalue : hexValueFrom 0 [hexChar (opField v), hexChar (regField v)] = v.toNat := by
    simp only [hexValueFrom, List.foldl_cons, List.foldl_nil, hexDigit_hexChar, Option.getD_some, opField_toNat,
      regField_toNat]
    omega
  exact (decodeCellMeansHexByteGrammar (hex2 v) v).mpr
    ⟨[], ['0', 'x'], _, [], rfl, nofun, nofun, .inr (.inl rfl), List.cons_ne_nil _ _, hdigits, hvalue⟩

end Sys2Proof.Machine
end

section
/-! The reads and the write behind LOAD and STORE (41_data_transfer.md): what they answer at an address that names no cell,
and that a canonical text that was stored is loaded back. -/

namespace Sys2Proof.Machine

/-! ## Cells read and written -/

theorem cellByte_of_ge {a : Nat} (s : State) (h : memCells ≤ a) : cellByte s a = none := if_pos h

theorem cellByte_setCell_other {a c : Nat} (s : State) (x : Text) (h : c ≠ a) :
    cellByte (setCell s a x) c = cellByte s c := by
  rw [cellByte, cellByte, cellText_setCell_other s a c x h]

theorem cellByte_setCell_self {a : Nat} (s : State) (v : Byte) (h : a < memCells) :
    cellByte (setCell s a (hex2 v)) a = some v := by
  rw [cellByte_of_lt _ h, cellText_setCell_self s a _ (hex2_ne_blank v), canonicalTextDecodesBack v]

theorem readByte_of_some {s : State} {a : Nat} {v : Byte} (h : cellByte s a = some v) : readByte s a = v := by
  rw [readByte, h, Option.getD_some]

theorem readByte_of_none {s : State} {a : Nat} (h : cellByte s a = none) : readByte s a = 0 := by
  rw [readByte, h, Option.getD_none]

theorem readErrors_of_some {s : State} {a : Nat} {v : Byte} (h : cellByte s a = some v) : readErrors s a = [] := by
  simp only [readErrors, h]

theorem readErrors_of_none {s : State} {a : Nat} (h : cellByte s a = none) :
    readErrors s a = [logEntry .error .decodeError a] := by
  simp only [readErrors, h]

theorem readErrors_isEmpty (s : State) (a : Nat) : (!(readErrors s a).isEmpty) = (cellByte s a).isNone := by
  cases h : cellByte s a with
  | none =>
    rw [readErrors_of_none h]
    rfl
  | some v =>
    rw [readErrors_of_some h]
    rfl

/-- Settles O9: an address that names no cell has no byte, and a read that finds none answers so (`memRead_of_none`). -/
theorem outOfRangeReadIsSoftFailure : Obligations.OutOfRangeReadIsSoftFailure := by
  unfold Obligations.OutOfRangeReadIsSoftFailure
  intro s a ha
  exact memRead_of_none (cellByte_of_ge s ha)

/-! ## LOAD -/

/-- The entries of LOAD's two reads set the dirty flag where either read fails. -/
theorem withEntries_loadErrors_dirty (s : State) (xy : Byte) : (withEntries s (loadErrors s xy)).dirty =
    (s.dirty || (cellByte s xy.toNat).isNone || (cellByte s (readByte s xy.toNat).toNat).isNone) := by
  rw [loadErrors, ← withEntries_withEntries, ← readErrors_isEmpty, ← readErrors_isEmpty]
  rfl

/-- Settles O10: LOAD answers the commit of the register written after the entries of its two reads (`loadRule_eq`). -/
theorem loadReadsThroughIntermediateCell : Obligations.LoadReadsThroughIntermediateCell := by
  unfold Obligations.LoadReadsThroughIntermediateCell
  intro reg xy s p
  refine ⟨commit s.pc ⟨.next, writeReg (withEntries s (loadErrors s xy)) reg (readByte s p.toNat)⟩, ?exec, ?written,
    otherRegistersKept_commit_writeReg (withEntries s _) reg _ s.pc,
    cellsKept_commit_writeReg (withEntries s _) reg _ s.pc, commit_log .., ?dirty, commit_execState ..,
    advancedByTwo_commit_next s _, ticked_commit_next rfl⟩
  case exec => rw [exec_eq_runRule, runRule_eq, ruleOf, loadRule_eq]
  case written => rw [commit_next, readReg_timerTick, readReg_setPc, readReg_writeReg_self]
  case dirty => rw [commit_dirty, writeReg_dirty, withEntries_loadErrors_dirty]

/-- Where both reads find a byte, LOAD writes the second and logs nothing. -/
theorem loadRule_of_some {reg : Nibble} {xy p v : Byte} {s : State} (hpointer : cellByte s xy.toNat = some p)
    (htarget : cellByte s p.toNat = some v) : loadRule reg xy s = ⟨.next, writeReg s reg v⟩ := by
  rw [loadRule_eq, loadErrors, readByte_of_some hpointer, readByte_of_some htarget, readErrors_of_some hpointer,
    readErrors_of_some htarget, List.append_nil, withEntries_nil]

/-! ## STORE -/

/-- STORE to an address that names no cell: the write is dropped with one entry (92_eei_decisions.md D4). -/
theorem storeRule_of_ge (reg : Nibble) {xy : Byte} (s : State) (h : memCells ≤ directAddr xy) :
    storeRule reg xy s = ⟨.next, withEntries s [logEntry .error .storeOutOfRange (directAddr xy)]⟩ := by
  rw [storeRule, memWrite_of_ge _ _ _ h]

/-- Settles O13: STORE to 255 answers the commit of `withEntries` with the one entry. -/
theorem storeToAbsentCellIsDropped : Obligations.StoreToAbsentCellIsDropped := by
  unfold Obligations.StoreToAbsentCellIsDropped
  intro reg s
  have hrule : storeRule reg 0xFF s = ⟨.next, withEntries s [logEntry .error .storeOutOfRange 255]⟩ :=
    storeRule_of_ge reg s (Nat.le_refl 255)
  refine ⟨commit s.pc ⟨.next, withEntries s [logEntry .error .storeOutOfRange 255]⟩, ?exec, ?cells, ?registers,
    commit_log .., ?dirty, commit_execState .., advancedByTwo_commit_next s _, ticked_commit_next rfl⟩
  case exec => rw [exec_eq_runRule, runRule_eq, ruleOf, hrule]
  case cells =>
    intro a
    rw [commit_next, cellText_timerTick, cellText_setPc, cellText_withEntries]
  case registers =>
    intro q
    rw [commit_next, readReg_timerTick, readReg_setPc, readReg_withEntries]
  case dirty => exact (commit_dirty ..).trans (Bool.or_true s.dirty)

theorem cellByte_congr {s t : State} (h : t.mem = s.mem) (a : Nat) : cellByte t a = cellByte s a := by
  rw [cellByte, cellByte, cellText_congr h]

/-- Settles O14: after the STORE the cell decodes to the byte stored (`cellByte_setCell_self`), so both reads of the LOAD
find a byte. -/
theorem storeThenIndirectLoadRoundTrips : Obligations.StoreThenIndirectLoadRoundTrips := by
  unfold Obligations.StoreThenIndirectLoadRoundTrips
  intro r q a b s t ha hstore hpointer
  have hcell : directAddr a < memCells := Nat.lt_succ_of_le ha
  rw [exec_eq_runRule, runRule_eq, ruleOf, storeRule_of_lt r s hcell] at hstore
  cases hstore
  have htarget : cellByte (commit s.pc ⟨.next, setCell s (directAddr a) (hex2 (readReg s r))⟩) a.toNat =
      some (readReg s r) := (cellByte_congr (commit_mem ..) _).trans (cellByte_setCell_self s _ hcell)
  obtain ⟨u, hload, hwritten, -, -, ⟨-, hlog, hdirty⟩, -⟩ :=
    exec_of_writeReg (i := .load q b) (loadRule_of_some hpointer htarget)
  exact ⟨u, hload, hwritten, hlog, hdirty⟩

end Sys2Proof.Machine
end

section
/-! The source order of the ALU's instructions, the branch not taken, HALT, and the pseudo-instructions (42_alu.md,
43_control.md, 30_encoding.md section 4). -/

namespace Sys2Proof.Machine

/-! ## Source order -/

theorem exactSum_comm (a b : Byte) : exactSum a b = exactSum b a := Nat.add_comm _ _

theorem addOverflows_comm (a b : Byte) : addOverflows a b = addOverflows b a := by
  rw [addOverflows, addOverflows, exactSum_comm]

theorem addRule_comm (reg hi lo : Nibble) (s : State) : addRule reg hi lo s = addRule reg lo hi s := by
  rw [addRule, addRule, addOverflows_comm, exactSum_comm]

theorem orRule_comm (reg hi lo : Nibble) (s : State) : orRule reg hi lo s = orRule reg lo hi s := by
  rw [orRule, orRule, BitVec.or_comm]

theorem andRule_comm (reg hi lo : Nibble) (s : State) : andRule reg hi lo s = andRule reg lo hi s := by
  rw [andRule, andRule, BitVec.and_comm]

theorem xorRule_comm (reg hi lo : Nibble) (s : State) : xorRule reg hi lo s = xorRule reg lo hi s := by
  rw [xorRule, xorRule, BitVec.xor_comm]

theorem xorRule_self (reg hi : Nibble) (s : State) : xorRule reg hi hi s = ⟨.next, writeReg s reg 0⟩ := by
  rw [xorRule, BitVec.xor_self]
  rfl

/-- Instructions whose rules return the same answer the same. -/
theorem exec_congr {i j : Instr} {s : State} (h : ruleOf i s = ruleOf j s) : exec i s = exec j s := by
  rw [exec_eq_runRule, exec_eq_runRule, runRule_eq, runRule_eq, h]

/-- Settles O17: each of the four rules is symmetric in its sources, and XOR of a register with itself writes 0. -/
theorem sourceOrderDoesNotMatter : Obligations.SourceOrderDoesNotMatter := by
  unfold Obligations.SourceOrderDoesNotMatter
  intro reg hi lo s
  refine ⟨exec_congr (addRule_comm reg hi lo s), exec_congr (orRule_comm reg hi lo s),
    exec_congr (andRule_comm reg hi lo s), exec_congr (xorRule_comm reg hi lo s), ?_⟩
  obtain ⟨t, hexec, hwritten, -⟩ := exec_of_writeReg (i := .xor reg hi hi) (xorRule_self reg hi s)
  exact ⟨t, hexec, hwritten⟩

/-! ## A branch not taken, and HALT -/

theorem beqRule_of_ne {reg : Nibble} (xy : Byte) {s : State} (h : readReg s reg ≠ readReg s 0) :
    beqRule reg xy s = ⟨.next, s⟩ :=
  if_neg fun hholds => h ((branchHolds_iff s reg).mp hholds)

theorem commit_next_pc_toNat (pc0 : Byte) (s : State) : (commit pc0 ⟨.next, s⟩).pc.toNat = (pc0.toNat + 2) % 256 := by
  rw [commit_next, timerTick_pc, setPc_pc, pcAdvance_toNat]

/-- Settles O21: BEQ answers the commit of its own state, which advances the counter and ticks the timer. -/
theorem untakenBranchAdvances : Obligations.UntakenBranchAdvances := by
  unfold Obligations.UntakenBranchAdvances
  intro reg xy s h
  refine ⟨commit s.pc ⟨.next, s⟩, ?exec, commit_next_pc_toNat s.pc s, ticked_commit_next rfl, ?registers, ?cells,
    rfl, rfl, rfl⟩
  case exec => rw [exec_eq_runRule, runRule_eq, ruleOf, beqRule_of_ne xy h]
  case registers =>
    intro q
    rw [commit_next, readReg_timerTick, readReg_setPc]
  case cells =>
    intro a
    rw [commit_next, cellText_timerTick, cellText_setPc]

/-- Settles O22: `C000` answers `stopMachine s`, and a malformed HALT the state of a fatal error of its own kind. -/
theorem haltStopsInPlace : Obligations.HaltStopsInPlace := by
  unfold Obligations.HaltStopsInPlace
  exact fun reg xy s => ⟨exec_halt s, exec_haltMalformed_of_ne s⟩

/-! ## The pseudo-instructions -/

theorem writeReg_readReg (s : State) (r : Nibble) : writeReg s r (readReg s r) = s := by
  rw [writeReg, readReg, Vector.set_getElem_self]

theorem moveRule_self (r : Nibble) (s : State) : moveRule 0 r r s = ⟨.next, s⟩ := by
  rw [moveRule_zero, writeReg_readReg]

/-- Settles O24: the three words decode to a BEQ of register 0 with itself, to a LOADI of 0, and to a MOVE of a register
to itself, whose rule leaves the state it found. -/
theorem pseudoInstructionsAreExact : Obligations.PseudoInstructionsAreExact := by
  unfold Obligations.PseudoInstructionsAreExact
  intro r xy s
  refine ⟨?jump, ?clear, ?nop⟩
  case jump =>
    have hdecode : decode 0xB0 xy = .beq 0 xy := decode_beq 0 xy
    obtain ⟨t, hexec, hpc, -⟩ := takenBranchLoadsCounter 0 xy s rfl
    exact ⟨t, hdecode ▸ hexec, hpc⟩
  case clear =>
    obtain ⟨hdecode, t, hexec, hwritten, -⟩ := loadiLoadsOperandByte r 0x00 s
    exact ⟨t, hdecode ▸ hexec, hwritten⟩
  case nop =>
    have hdecode : decode 0x40 0x00 = .move 0 0 := decode_move 0 0
    refine ⟨commit s.pc ⟨.next, s⟩, ?_, rfl⟩
    rw [hdecode, exec_eq_runRule, runRule_eq, ruleOf, moveRule_self]

end Sys2Proof.Machine
end

section
/-! The step (40_step_cycle.md). It is the decoded instruction at the state the fetch leaves; where the two cells decode,
the fetch leaves the state itself, and an instruction that was placed there is the one that runs. -/

namespace Sys2Proof.Machine

/-! ## The step as an instruction after the fetch -/

theorem step_eq_exec (s : State) :
    step s = exec (decode (fetchedOpcode s) (fetchedOperand s)) (afterFetch s) := by
  rw [step, fetch_eq]

/-- Settles O30: the step is the decoded instruction at `afterFetch s`, which appends the entries of the two reads. -/
theorem stepFetchesBothCellsFailSoft : Obligations.StepFetchesBothCellsFailSoft := by
  unfold Obligations.StepFetchesBothCellsFailSoft
  exact fun s => step_eq_exec s

theorem exec_answers_next (i : Instr) (s : State) : ∃ t, exec i s = .next t :=
  ⟨_, (exec_eq_runRule i s).trans (runRule_eq _ s)⟩

theorem step_answers_next (s : State) : ∃ t, step s = .next t := ⟨_, step_eq_commit s⟩

/-- Settles O32: an instruction is its rule, run and committed, and a commit is a next state. -/
theorem everyStepAnswersNextState : Obligations.EveryStepAnswersNextState := by
  unfold Obligations.EveryStepAnswersNextState
  exact ⟨step_answers_next, exec_answers_next⟩

theorem afterFetch_of_some {s : State} {b1 b2 : Byte} (hop : cellByte s s.pc.toNat = some b1)
    (hoperand : cellByte s (s.pc.toNat + 1) = some b2) : afterFetch s = s := by
  rw [afterFetch, readErrors_of_some hop, readErrors_of_some hoperand, List.append_nil, withEntries_nil]

/-- Where both cells decode, the step is the instruction of the two bytes, at the state itself. -/
theorem step_of_some {s : State} {b1 b2 : Byte} (hop : cellByte s s.pc.toNat = some b1)
    (hoperand : cellByte s (s.pc.toNat + 1) = some b2) : step s = exec (decode b1 b2) s := by
  rw [step_eq_exec, afterFetch_of_some hop hoperand, fetchedOpcode, fetchedOperand, readByte_of_some hop,
    readByte_of_some hoperand]

/-- Settles O29: the two cells decode, so the fetch leaves the state as it was (`step_of_some`). -/
theorem stepRunsDecodedInstruction : Obligations.StepRunsDecodedInstruction := by
  unfold Obligations.StepRunsDecodedInstruction
  intro s b1 b2 i _ hop hoperand hdecode
  rw [step_of_some hop hoperand, hdecode]

/-! ## A placed instruction -/

theorem placingCounter_succ_lt (s : State) : (placingCounter s).toNat + 1 < memCells := by
  unfold placingCounter
  split
  · assumption
  · decide

theorem cellByte_placeAtCounter_opcode (s : State) (b1 b2 : Byte) :
    cellByte (placeAtCounter s b1 b2) (placingCounter s).toNat = some b1 := by
  simp only [placeAtCounter]
  rw [cellByte_setCell_other _ _ (Nat.succ_ne_self _).symm,
    cellByte_setCell_self _ b1 (Nat.lt_of_succ_lt (placingCounter_succ_lt s))]

theorem cellByte_placeAtCounter_operand (s : State) (b1 b2 : Byte) :
    cellByte (placeAtCounter s b1 b2) ((placingCounter s).toNat + 1) = some b2 :=
  cellByte_setCell_self _ b2 (placingCounter_succ_lt s)

/-- Settles O31: the word's two bytes are the encoding (`tableOpcodeByte_encodeWord`, `tableOperandByte_encodeWord`), and
both cells that they are placed in decode back. -/
theorem placedWordIsTheNextInstruction : Obligations.PlacedWordIsTheNextInstruction := by
  unfold Obligations.PlacedWordIsTheNextInstruction
  intro i s h
  refine ⟨decodeTableWord_encodeWord h, ?_⟩
  have hplaced : s.withFetchWord 16 (encodeWord i).toNat = placeAtCounter s (encode i).1 (encode i).2 := by
    rw [State.withFetchWord, tableOpcodeByte_encodeWord, tableOperandByte_encodeWord]
  have hop := cellByte_placeAtCounter_opcode s (encode i).1 (encode i).2
  have hoperand := cellByte_placeAtCounter_operand s (encode i).1 (encode i).2
  rw [hplaced, step_of_some hop hoperand, decode_encode i h]

/-! ## Fetches that fail -/

theorem decode_zero (b2 : Byte) : decode 0 b2 = .unrecognized0 (restField 0 b2) := decode_of_opcode_zero b2 rfl

/-- A step whose opcode cell does not decode runs opcode 0. -/
theorem step_of_opcode_none {s : State} (h : cellByte s s.pc.toNat = none) :
    step s = .next (fatalState (afterFetch s) .unrecognized) := by
  rw [step_eq_exec, fetchedOpcode, readByte_of_none h, decode_zero]
  exact exec_of_raiseFatal rfl

theorem fatalState_withEntries (s : State) (es : List LogEntry) (k : EntryKind) :
    fatalState (withEntries s es) k = { s with
      log := s.log ++ (es ++ [logEntry .error k s.pc.toNat])
      dirty := true
      execState := .stopped } := by
  rw [fatalState, withEntries, List.append_assoc]

/-- Settles O42: the failed fetch names opcode 0 (`step_of_opcode_none`), and its entries come before that of the fatal
error; at counter 255 neither address names a cell. -/
theorem undecodableOpcodeCellStops : Obligations.UndecodableOpcodeCellStops := by
  unfold Obligations.UndecodableOpcodeCellStops
  intro s
  have hstops (h : cellByte s s.pc.toNat = none) : step s = .next { s with
      log := s.log ++ ([logEntry .error .decodeError s.pc.toNat] ++ readErrors s (s.pc.toNat + 1) ++
        [logEntry .error .unrecognized s.pc.toNat])
      dirty := true
      execState := .stopped } := by
    rw [step_of_opcode_none h, afterFetch, readErrors_of_none h, fatalState_withEntries]
  refine ⟨hstops, fun hpc => ?_⟩
  have hcounter : s.pc.toNat = 255 := by rw [hpc]; rfl
  have hop : cellByte s 255 = none := cellByte_of_ge s (Nat.le_refl 255)
  have hoperand : cellByte s 256 = none := cellByte_of_ge s (Nat.le_succ 255)
  rw [hstops (hcounter ▸ hop), hcounter, readErrors_of_none hoperand]
  rfl

end Sys2Proof.Machine
end

section
/-! What a step changes (40_step_cycle.md section 4, 10_state.md R13). The rule of the two fetched bytes stops, branches or
completes as the bytes say, and the commit follows; of the registers only the one that the bytes name is written. -/

namespace Sys2Proof.Machine

/-! ## When a rule stops -/

/-- Opcode 12 is HALT or its malformed form, which have one rule (43_control.md R101). -/
theorem ruleOf_decode_of_opcode_twelve {b1 : Byte} (b2 : Byte) (s : State) (h : b1.toNat / 16 = 12) :
    ruleOf (decode b1 b2) s = haltRule (regField b1) b2 s := by
  have hdecode : decode b1 b2 = if regField b1 = 0 ∧ b2 = 0 then .halt else .haltMalformed (regField b1) b2 := by
    rw [decode_of_opcode b2 h, decode_append]
    rfl
  rw [hdecode]
  split_ifs with hzero
  · obtain ⟨hreg, hxy⟩ := hzero
    rw [hreg, hxy, ruleOf]
  · rw [ruleOf]

theorem ruleOf_decode_stop_of_stopsOn {b1 b2 : Byte} {s : State} (h : stopsOn s b1 b2) :
    (ruleOf (decode b1 b2) s).outcome = .stop := by
  obtain hhalt | hillegal | ⟨hadd, hsum⟩ := h
  · rw [ruleOf_decode_of_opcode_twelve b2 s hhalt, haltRule]
  · obtain ⟨k, hk⟩ := Option.isSome_iff_exists.mp hillegal
    rw [ruleOf_decode_of_illegalRow s ((illegalKind_eq_some_iff b1 b2 k).mp hk), raiseFatal_eq]
  · rw [regOf_div, regOf_mod] at hsum
    rw [decode_of_opcode_five b2 hadd, ruleOf, addRule_of_gt _ hsum, raiseFatal_eq]

/-- A rule ends in `stop` exactly on HALT, an illegal encoding and an ADD that overflows (60_exceptions.md R132). -/
theorem ruleOf_decode_stop_iff (b1 b2 : Byte) (s : State) :
    (ruleOf (decode b1 b2) s).outcome = .stop ↔ stopsOn s b1 b2 :=
  ⟨stopsOn_of_ruleOf_decode_stop, ruleOf_decode_stop_of_stopsOn⟩

/-- A rule that stops leaves counter, timer, registers and memory as it found them (60_exceptions.md R115). -/
theorem RuleEffect.kept_of_stop {s : State} {r : Ruled} (h : RuleEffect s r) (hstop : r.outcome = .stop) :
    r.state.pc = s.pc ∧ r.state.timer = s.timer ∧ r.state.regs = s.regs ∧ r.state.mem = s.mem := by
  cases h with
  | stops | fails => exact ⟨rfl, rfl, rfl, rfl⟩
  | passes | branches | writesReg | writesCell => cases hstop

@[simp] theorem memWrite_timer (a : Nat) (v : Byte) (s : State) : (memWrite a v s).timer = s.timer := by
  unfold memWrite
  split <;> rfl

@[simp] theorem memWrite_regs (a : Nat) (v : Byte) (s : State) : (memWrite a v s).regs = s.regs := by
  unfold memWrite
  split <;> rfl

/-- No rule writes the timer: the commit ticks it (40_step_cycle.md R73). -/
theorem RuleEffect.timer {s : State} {r : Ruled} (h : RuleEffect s r) : r.state.timer = s.timer := by
  cases h with
  | writesCell a v => exact memWrite_timer ..
  | passes | branches | writesReg | stops | fails => rfl

/-! ## When a rule branches -/

theorem regOf_toNat (r : Nibble) : regOf r.toNat = r := by
  rw [regOf, BitVec.ofNat_toNat, BitVec.setWidth_eq]

theorem takenOn_append_iff (s : State) (reg : Nibble) :
    takenOn s (0xB#4 ++ reg) ↔ readReg s reg = readReg s 0 := by
  rw [takenOn, nibbles_div, nibbles_mod, regOf_toNat]
  exact and_iff_right rfl

/-- Opcode 11 is BEQ, with the operand byte as its target. -/
theorem ruleOf_decode_of_takenOn {b1 : Byte} (b2 : Byte) {s : State} (h : takenOn s b1) :
    ruleOf (decode b1 b2) s = ⟨.taken b2, s⟩ := by
  obtain ⟨hop, heq⟩ := h
  rw [← regField_toNat, regOf_toNat] at heq
  rw [decode_of_opcode b2 hop]
  exact (congrArg (ruleOf · s) (decode_beq (regField b1) b2)).trans (beqRule_of_eq b2 heq)

/-- A rule with a fatal case and a completing one does not branch. -/
theorem not_taken_of_fatal_or_next {s t : State} {bad : Bool} {k : EntryKind} {target : Byte}
    (h : (if bad then raiseFatal k s else ⟨.next, t⟩ : Ruled).outcome = .taken target) : False := by
  cases bad <;> cases h

theorem readReg_eq_of_beqRule_taken {reg : Nibble} {xy target : Byte} {s : State}
    (h : (beqRule reg xy s).outcome = .taken target) : readReg s reg = readReg s 0 := by
  by_contra hne
  rw [beqRule_of_ne xy hne] at h
  cases h

theorem takenOn_of_ruleOf_decode_taken {b1 b2 target : Byte} {s : State}
    (h : (ruleOf (decode b1 b2) s).outcome = .taken target) : takenOn s b1 := by
  obtain ⟨-, hencode⟩ := encodedBy_decode b1 b2
  cases hi : decode b1 b2 <;> rw [hi] at h hencode
  case beq reg xy =>
    obtain ⟨rfl, -⟩ := Prod.mk.inj hencode
    exact (takenOn_append_iff s reg).mpr (readReg_eq_of_beqRule_taken h)
  case move | moveIllegal | add | ror | rorIllegal => exact (not_taken_of_fatal_or_next h).elim
  case load | loadi | store | or | and | xor | halt | haltMalformed => cases h
  case reserved6 | unrecognized0 | unrecognizedD | unrecognizedE | unrecognizedF => cases h

/-! ## The commit of a step -/

theorem commit_pc_of_next {r : Ruled} (pc0 : Byte) (h : r.outcome = .next) :
    (commit pc0 r).pc.toNat = (pc0.toNat + 2) % 256 := by
  obtain ⟨outcome, s⟩ := r
  cases h
  exact commit_next_pc_toNat pc0 s

theorem commit_timer_of_ne_stop {r : Ruled} (pc0 : Byte) (h : r.outcome ≠ .stop) :
    (commit pc0 r).timer.toNat = r.state.timer.toNat - 1 := by
  obtain ⟨outcome, s⟩ := r
  cases outcome with
  | next | taken => exact timerTick_toNat _
  | stop => exact absurd rfl h

theorem commit_of_stop {r : Ruled} (pc0 : Byte) (h : r.outcome = .stop) : commit pc0 r = r.state := by
  obtain ⟨outcome, s⟩ := r
  cases h
  rfl

/-- A stopping step sets Stopped and keeps counter, timer, registers and cells (60_exceptions.md R132). -/
theorem step_of_stopsOn {s t : State} (h : step s = .next t) (hstops : stopsOn s (fetchedOpcode s) (fetchedOperand s)) :
    t.execState = .stopped ∧ t.pc = s.pc ∧ t.timer = s.timer ∧ registersKept s t ∧ cellsKept s t := by
  have hstop : (ruleOf (decode (fetchedOpcode s) (fetchedOperand s)) (afterFetch s)).outcome = .stop :=
    (ruleOf_decode_stop_iff _ _ (afterFetch s)).mpr hstops
  have hexec := step_execState h
  rw [if_pos hstop] at hexec
  rw [step_eq_commit, commit_of_stop _ hstop] at h
  cases h
  obtain ⟨hpc, htimer, hregs, hmem⟩ := (ruleEffect_ruleOf _ _).kept_of_stop hstop
  exact ⟨hexec, hpc, htimer, fun q => readReg_congr _ _ q hregs, fun a => cellText_congr hmem a⟩

/-- Every other step keeps the execution state, ticks the timer, and takes the branch or advances (40_step_cycle.md R73,
R74). -/
theorem step_of_not_stopsOn {s t : State} (h : step s = .next t)
    (hstops : ¬ stopsOn s (fetchedOpcode s) (fetchedOperand s)) :
    t.execState = s.execState ∧ ticked s t ∧ (takenOn s (fetchedOpcode s) → t.pc = fetchedOperand s) ∧
      (¬ takenOn s (fetchedOpcode s) → t.pc.toNat = (s.pc.toNat + 2) % 256) := by
  have hne : (ruleOf (decode (fetchedOpcode s) (fetchedOperand s)) (afterFetch s)).outcome ≠ .stop :=
    fun hstop => hstops ((ruleOf_decode_stop_iff _ _ (afterFetch s)).mp hstop)
  have hexec := step_execState h
  rw [if_neg hne] at hexec
  rw [step_eq_commit] at h
  cases h
  refine ⟨hexec, ?ticks, fun htaken => ?taken, fun hnot => commit_pc_of_next s.pc ?next⟩
  case ticks =>
    rw [ticked, commit_timer_of_ne_stop s.pc hne, (ruleEffect_ruleOf _ _).timer]
    rfl
  case taken =>
    have hbranch : takenOn (afterFetch s) (fetchedOpcode s) := htaken
    rw [ruleOf_decode_of_takenOn _ hbranch, commit_taken, timerTick_pc, setPc_pc]
  case next =>
    cases houtcome : (ruleOf (decode (fetchedOpcode s) (fetchedOperand s)) (afterFetch s)).outcome with
    | next => rfl
    | stop => exact absurd houtcome hne
    | taken target => exact absurd (takenOn_of_ruleOf_decode_taken houtcome) hnot

/-- Settles O33, by whether the fetched bytes stop the machine (`step_of_stopsOn`, `step_of_not_stopsOn`). -/
theorem stepStopsExactlyWhenSpecified : Obligations.StepStopsExactlyWhenSpecified := by
  unfold Obligations.StepStopsExactlyWhenSpecified
  exact fun s => ⟨_, step_eq_commit s, step_of_stopsOn (step_eq_commit s), step_of_not_stopsOn (step_eq_commit s)⟩

/-- The entries of the fetch stay in the log. -/
theorem mem_log_of_mem_fetch {s t : State} (h : step s = .next t) {e : LogEntry} (he : e ∈ (afterFetch s).log) :
    e ∈ t.log := by
  rw [step_eq_commit] at h
  cases h
  obtain ⟨⟨es, hes⟩, -⟩ := logGrows_ruleOf (decode (fetchedOpcode s) (fetchedOperand s)) (afterFetch s)
  rw [commit_log, hes]
  exact List.mem_append_left es he

/-- Settles O41: the operand cell of counter 254 is 255, which does not exist, and 254 + 2 is 0 modulo 256. -/
theorem counterWrapsAtTopOfMemory : Obligations.CounterWrapsAtTopOfMemory := by
  unfold Obligations.CounterWrapsAtTopOfMemory
  intro s t hpc h
  have hcounter : s.pc.toNat = 254 := by rw [hpc]; rfl
  have hnone : cellByte s (s.pc.toNat + 1) = none := cellByte_of_ge s (by rw [hcounter]; exact Nat.le_refl 255)
  have hoperand : fetchedOperand s = 0 := readByte_of_none hnone
  refine ⟨hoperand, mem_log_of_mem_fetch h ?entry, fun hstops htaken => ?wraps⟩
  case entry =>
    rw [afterFetch, readErrors_of_none hnone, hcounter, withEntries]
    exact List.mem_append_right _ (List.mem_append_right _ List.mem_cons_self)
  case wraps =>
    obtain ⟨-, -, -, hadvance⟩ := step_of_not_stopsOn h (hoperand ▸ hstops)
    have hzero : t.pc.toNat = (s.pc.toNat + 2) % 256 := hadvance htaken
    rw [hcounter] at hzero
    exact BitVec.eq_of_toNat_eq hzero

/-! ## The register written -/

/-- The register that an instruction may write (10_state.md R13), tied to the table over the bytes by
`writtenRegister_encode`. -/
def registerOf : Instr → Option Nibble
  | .load reg _ | .loadi reg _ | .add reg _ _ | .or reg _ _ | .and reg _ _ | .xor reg _ _ | .ror reg _ => some reg
  | .move _ lo => some lo
  | _ => none

theorem toNat_ne_zero {n : Nibble} (h : n ≠ 0) : n.toNat ≠ 0 := fun h0 => h (BitVec.eq_of_toNat_eq h0)

theorem writtenRegister_encode (i : Instr) (h : i.wellFormed = true) :
    writtenRegister (encode i).1 (encode i).2 = registerOf i := by
  cases i with
  | moveIllegal reg hi lo =>
    have hreg := toNat_ne_zero (bne_iff_ne.mp h)
    simp [writtenRegister, encode, encodeRST, registerOf, hreg]
  | rorIllegal reg hi lo =>
    have hhi := toNat_ne_zero (bne_iff_ne.mp h)
    simp [writtenRegister, encode, encodeRST, registerOf, hhi]
  | _ => simp [writtenRegister, encode, encodeRXY, encodeRST, encodeAny, registerOf, regOf_toNat]

@[simp] theorem commit_regs (pc0 : Byte) (r : Ruled) : (commit pc0 r).regs = r.state.regs := by
  obtain ⟨outcome, s⟩ := r
  cases outcome <;> rfl

theorem readReg_writeReg_other {r q : Nibble} (s : State) (v : Byte) (h : some r ≠ some q) :
    readReg (writeReg s r v) q = readReg s q := by
  rw [readReg_writeReg, if_neg fun hq => h (congrArg some hq.symm)]

/-- A rule with a fatal case and one that writes a register changes no other register. -/
theorem readReg_fatal_or_writeReg {r q : Nibble} (s : State) (bad : Bool) (k : EntryKind) (v : Byte)
    (h : some r ≠ some q) :
    readReg (if bad then raiseFatal k s else ⟨.next, writeReg s r v⟩ : Ruled).state q = readReg s q := by
  split
  · rfl
  · exact readReg_writeReg_other s v h

theorem readReg_beqRule (reg : Nibble) (xy : Byte) (s : State) (q : Nibble) :
    readReg (beqRule reg xy s).state q = readReg s q := by
  unfold beqRule
  split <;> rfl

theorem readReg_haltRule (reg : Nibble) (xy : Byte) (s : State) (q : Nibble) :
    readReg (haltRule reg xy s).state q = readReg s q := by
  unfold haltRule
  split <;> rfl

/-- The rule of a well-formed instruction keeps every register but the one the instruction may write. -/
theorem ruleOf_readReg {i : Instr} {q : Nibble} (s : State) (hwf : i.wellFormed = true) (h : registerOf i ≠ some q) :
    readReg (ruleOf i s).state q = readReg s q := by
  cases i with
  | load reg xy =>
    rw [ruleOf, loadRule_eq, readReg_writeReg_other _ _ h, readReg_withEntries]
  | loadi | or | and | xor => exact readReg_writeReg_other s _ h
  | store reg xy => exact readReg_congr _ _ q (memWrite_regs ..)
  | move hi lo =>
    rw [ruleOf, moveRule_zero]
    exact readReg_writeReg_other s _ h
  | ror reg lo =>
    rw [ruleOf, rorRule_zero]
    exact readReg_writeReg_other s _ h
  | add => exact readReg_fatal_or_writeReg s _ _ _ h
  | beq reg xy => exact readReg_beqRule reg xy s q
  | halt => exact readReg_haltRule 0 0 s q
  | haltMalformed reg xy => exact readReg_haltRule reg xy s q
  | moveIllegal reg hi lo =>
    rw [ruleOf, moveRule_of_ne hi lo s (bne_iff_ne.mp hwf)]
    rfl
  | rorIllegal reg hi lo =>
    rw [ruleOf, rorRule_of_ne reg lo s (bne_iff_ne.mp hwf)]
    rfl
  | reserved6 | unrecognized0 | unrecognizedD | unrecognizedE | unrecognizedF => rfl

/-- Settles O36: the fetched bytes encode what they decode to (`encodedBy_decode`), so the register of the table is the
one that the instruction may write. -/
theorem onlyTheNamedRegisterChanges : Obligations.OnlyTheNamedRegisterChanges := by
  unfold Obligations.OnlyTheNamedRegisterChanges
  intro s t h q hq
  obtain ⟨hwf, hencode⟩ := encodedBy_decode (fetchedOpcode s) (fetchedOperand s)
  have hregister := writtenRegister_encode _ hwf
  rw [hencode] at hregister
  rw [step_eq_commit] at h
  cases h
  rw [readReg_congr _ _ q (commit_regs _ _), ruleOf_readReg _ hwf (hregister ▸ hq)]
  rfl

end Sys2Proof.Machine
end

section
/-! The cells a step does not read (20_memory.md R41). Two states that differ in one cell only are kept so by every operation,
and the rules give them the same outcome, as long as the cell is none of those that LOAD reads. -/

namespace Sys2Proof.Machine

/-! ## States that agree off one cell -/

/-- The state with its memory replaced. -/
def withMem (s : State) (m : Memory) : State := { s with mem := m }

/-- Two states that differ at most in what the cell at `a` holds. -/
def AgreesOff (a : Nat) (s t : State) : Prop := ∃ m : Memory, t = withMem s m ∧ ∀ c, c ≠ a → m.read c = s.mem.read c

theorem agreesOff_setCell (s : State) (a : Nat) (x : Text) : AgreesOff a s (setCell s a x) :=
  ⟨s.mem.write a x, rfl, fun c => Memory.read_write_other s.mem a c x⟩

theorem AgreesOff.cellByte {a c : Nat} {s t : State} (h : AgreesOff a s t) (hc : c ≠ a) :
    cellByte t c = cellByte s c := by
  obtain ⟨m, rfl, hm⟩ := h
  have htext : cellText (withMem s m) c = cellText s c := hm c hc
  rw [Machine.cellByte, Machine.cellByte, htext]

theorem AgreesOff.readByte {a c : Nat} {s t : State} (h : AgreesOff a s t) (hc : c ≠ a) :
    readByte t c = readByte s c := by
  rw [Machine.readByte, Machine.readByte, h.cellByte hc]

theorem AgreesOff.readErrors {a c : Nat} {s t : State} (h : AgreesOff a s t) (hc : c ≠ a) :
    readErrors t c = readErrors s c := by
  simp only [Machine.readErrors, h.cellByte hc]

theorem AgreesOff.withEntries {a : Nat} {s t : State} (h : AgreesOff a s t) (es : List LogEntry) :
    AgreesOff a (withEntries s es) (withEntries t es) := by
  obtain ⟨m, rfl, hm⟩ := h
  exact ⟨m, rfl, hm⟩

theorem AgreesOff.writeReg {a : Nat} {s t : State} (h : AgreesOff a s t) (r : Nibble) (v : Byte) :
    AgreesOff a (writeReg s r v) (writeReg t r v) := by
  obtain ⟨m, rfl, hm⟩ := h
  exact ⟨m, rfl, hm⟩

/-- The same cell written in both states: they agree there, and elsewhere as before. -/
theorem AgreesOff.setCell {a : Nat} {s t : State} (h : AgreesOff a s t) (b : Nat) {x : Text} (hx : x ≠ blank) :
    AgreesOff a (setCell s b x) (setCell t b x) := by
  obtain ⟨m, rfl, hm⟩ := h
  refine ⟨m.write b x, rfl, fun c hc => ?_⟩
  rw [setCell_mem]
  by_cases hcb : c = b
  · rw [hcb, Memory.read_write_self m b x hx, Memory.read_write_self s.mem b x hx]
  · rw [Memory.read_write_other m b c x hcb, Memory.read_write_other s.mem b c x hcb, hm c hc]

theorem AgreesOff.memWrite {a : Nat} {s t : State} (h : AgreesOff a s t) (b : Nat) (v : Byte) :
    AgreesOff a (memWrite b v s) (memWrite b v t) := by
  by_cases hb : b < memCells
  · rw [memWrite_of_lt _ _ _ hb, memWrite_of_lt _ _ _ hb]
    exact h.setCell b (hex2_ne_blank v)
  · have hge := Nat.le_of_not_lt hb
    rw [memWrite_of_ge _ _ _ hge, memWrite_of_ge _ _ _ hge]
    exact h.withEntries _

/-! ## The rules on states that agree -/

/-- Two rules ended alike, in states that agree off the cell. -/
def RuledAgree (a : Nat) (r r' : Ruled) : Prop := r'.outcome = r.outcome ∧ AgreesOff a r.state r'.state

theorem ruledAgree_next {a : Nat} {s t : State} (h : AgreesOff a s t) : RuledAgree a ⟨.next, s⟩ ⟨.next, t⟩ := ⟨rfl, h⟩

theorem ruledAgree_raiseFatal {a : Nat} {s t : State} (h : AgreesOff a s t) (k : EntryKind) :
    RuledAgree a (raiseFatal k s) (raiseFatal k t) := by
  obtain ⟨m, rfl, hm⟩ := h
  exact ⟨rfl, m, rfl, hm⟩

/-- A rule with a fatal case and one that writes a register. -/
theorem ruledAgree_fatal_or_writeReg {a : Nat} {s t : State} (h : AgreesOff a s t) (bad : Bool) (k : EntryKind)
    (r : Nibble) (v : Byte) :
    RuledAgree a (if bad then raiseFatal k s else ⟨.next, writeReg s r v⟩)
      (if bad then raiseFatal k t else ⟨.next, writeReg t r v⟩) := by
  split
  · exact ruledAgree_raiseFatal h k
  · exact ruledAgree_next (h.writeReg r v)

theorem AgreesOff.readReg {a : Nat} {s t : State} (h : AgreesOff a s t) (q : Nibble) : readReg t q = readReg s q := by
  obtain ⟨m, rfl, -⟩ := h
  rfl

theorem ruledAgree_loadRule {a : Nat} {reg : Nibble} {xy : Byte} {s t : State} (h : AgreesOff a s t)
    (hpointer : xy.toNat ≠ a) (htarget : (readByte s xy.toNat).toNat ≠ a) :
    RuledAgree a (loadRule reg xy s) (loadRule reg xy t) := by
  rw [loadRule_eq, loadRule_eq, loadErrors, loadErrors, h.readByte hpointer, h.readByte htarget, h.readErrors hpointer,
    h.readErrors htarget]
  exact ruledAgree_next ((h.withEntries _).writeReg _ _)

theorem ruledAgree_beqRule {a : Nat} {s t : State} (h : AgreesOff a s t) (reg : Nibble) (xy : Byte) :
    RuledAgree a (beqRule reg xy s) (beqRule reg xy t) := by
  have hcond : branchHolds t reg = branchHolds s reg := by rw [branchHolds, branchHolds, h.readReg, h.readReg]
  rw [beqRule, beqRule, hcond]
  split <;> exact ⟨rfl, h⟩

theorem ruledAgree_haltRule {a : Nat} {s t : State} (h : AgreesOff a s t) (reg : Nibble) (xy : Byte) :
    RuledAgree a (haltRule reg xy s) (haltRule reg xy t) := by
  obtain ⟨m, rfl, hm⟩ := h
  rw [haltRule, haltRule]
  split <;> exact ⟨rfl, m, rfl, hm⟩

/-- No rule but LOAD's reads a cell, and LOAD's reads the two it names (20_memory.md R41). -/
theorem ruledAgree_ruleOf {a : Nat} {s t : State} (i : Instr) (h : AgreesOff a s t)
    (hload : ∀ reg xy, i = .load reg xy → xy.toNat ≠ a ∧ (readByte s xy.toNat).toNat ≠ a) :
    RuledAgree a (ruleOf i s) (ruleOf i t) := by
  cases i with
  | load reg xy =>
    obtain ⟨hpointer, htarget⟩ := hload reg xy rfl
    exact ruledAgree_loadRule h hpointer htarget
  | store reg xy =>
    rw [ruleOf, storeRule, storeRule, h.readReg]
    exact ruledAgree_next (h.memWrite _ _)
  | beq reg xy => exact ruledAgree_beqRule h reg xy
  | halt => exact ruledAgree_haltRule h 0 0
  | haltMalformed reg xy => exact ruledAgree_haltRule h reg xy
  | move hi lo =>
    rw [ruleOf, moveRule_zero, moveRule_zero, h.readReg]
    exact ruledAgree_next (h.writeReg _ _)
  | ror reg lo =>
    rw [ruleOf, rorRule_zero, rorRule_zero, h.readReg]
    exact ruledAgree_next (h.writeReg _ _)
  | moveIllegal reg hi lo =>
    rw [ruleOf, moveRule, moveRule, h.readReg]
    exact ruledAgree_fatal_or_writeReg h _ _ _ _
  | add reg hi lo =>
    rw [ruleOf, addRule, addRule, h.readReg, h.readReg]
    exact ruledAgree_fatal_or_writeReg h _ _ _ _
  | rorIllegal reg hi lo =>
    rw [ruleOf, rorRule, rorRule, h.readReg]
    exact ruledAgree_fatal_or_writeReg h _ _ _ _
  | loadi reg xy => exact ruledAgree_next (h.writeReg _ _)
  | or reg hi lo =>
    rw [ruleOf, orRule, orRule, h.readReg, h.readReg]
    exact ruledAgree_next (h.writeReg _ _)
  | and reg hi lo =>
    rw [ruleOf, andRule, andRule, h.readReg, h.readReg]
    exact ruledAgree_next (h.writeReg _ _)
  | xor reg hi lo =>
    rw [ruleOf, xorRule, xorRule, h.readReg, h.readReg]
    exact ruledAgree_next (h.writeReg _ _)
  | reserved6 | unrecognized0 | unrecognizedD | unrecognizedE | unrecognizedF => exact ruledAgree_raiseFatal h _

theorem RuledAgree.commit {a : Nat} {r r' : Ruled} (h : RuledAgree a r r') (pc0 : Byte) :
    AgreesOff a (commit pc0 r) (commit pc0 r') := by
  obtain ⟨outcome, s⟩ := r
  obtain ⟨outcome', t⟩ := r'
  obtain ⟨houtcome, m, hstate, hm⟩ := h
  cases houtcome
  cases hstate
  cases outcome with
  | next | taken | stop => exact ⟨m, rfl, hm⟩

/-! ## The step on states that agree -/

/-- The opcode and the operand cell are among the cells that the step reads. -/
theorem ne_of_not_mem_cellsRead {a : Nat} {s : State} (h : a ∉ cellsRead s) :
    s.pc.toNat ≠ a ∧ s.pc.toNat + 1 ≠ a := by
  rw [cellsRead, List.mem_append, not_or, List.mem_cons, List.mem_singleton, not_or] at h
  obtain ⟨⟨hop, hoperand⟩, -⟩ := h
  exact ⟨Ne.symm hop, Ne.symm hoperand⟩

/-- Where a LOAD is fetched, so are the intermediate and the target cell. -/
theorem ne_of_not_mem_cellsRead_of_load {a : Nat} {s : State} {reg : Nibble} {xy : Byte} (h : a ∉ cellsRead s)
    (hload : decode (fetchedOpcode s) (fetchedOperand s) = .load reg xy) :
    xy.toNat ≠ a ∧ (readByte s xy.toNat).toNat ≠ a := by
  obtain ⟨-, hencode⟩ := encodedBy_decode (fetchedOpcode s) (fetchedOperand s)
  rw [hload] at hencode
  obtain ⟨hopcode, rfl⟩ := Prod.mk.inj hencode
  have hop : (fetchedOpcode s).toNat / 16 = 1 := hopcode ▸ nibbles_div 0x1 reg
  rw [cellsRead, if_pos hop, List.mem_append, not_or] at h
  obtain ⟨-, hcells⟩ := h
  rw [List.mem_cons, List.mem_singleton, not_or] at hcells
  obtain ⟨hpointer, htarget⟩ := hcells
  exact ⟨Ne.symm hpointer, Ne.symm htarget⟩

theorem agreesOff_step {a : Nat} {s t : State} (h : AgreesOff a s t) (ha : a ∉ cellsRead s) :
    ∃ s' t', step s = .next s' ∧ step t = .next t' ∧ AgreesOff a s' t' := by
  obtain ⟨hop, hoperand⟩ := ne_of_not_mem_cellsRead ha
  have hpc : t.pc = s.pc := by
    obtain ⟨m, rfl, -⟩ := h
    rfl
  have hopcode : fetchedOpcode t = fetchedOpcode s := by rw [fetchedOpcode, fetchedOpcode, hpc, h.readByte hop]
  have hbyte : fetchedOperand t = fetchedOperand s := by rw [fetchedOperand, fetchedOperand, hpc, h.readByte hoperand]
  have hfetch : AgreesOff a (afterFetch s) (afterFetch t) := by
    rw [afterFetch, afterFetch, hpc, h.readErrors hop, h.readErrors hoperand]
    exact h.withEntries _
  have hrule := ruledAgree_ruleOf (decode (fetchedOpcode s) (fetchedOperand s)) hfetch
    fun _ _ hload => ne_of_not_mem_cellsRead_of_load ha hload
  refine ⟨_, _, step_eq_commit s, step_eq_commit t, ?_⟩
  rw [hpc, hopcode, hbyte]
  exact hrule.commit s.pc

/-- Settles O39: the rewritten cell is the one in which the two states differ, before the step and after it
(`agreesOff_step`). -/
theorem unreadCellsHaveNoEffect : Obligations.UnreadCellsHaveNoEffect := by
  unfold Obligations.UnreadCellsHaveNoEffect
  intro s t a x ha h
  obtain ⟨t', u, hstep, hstep', m, rfl, hm⟩ := agreesOff_step (agreesOff_setCell s a x) ha
  cases h.symm.trans hstep
  exact ⟨_, hstep', rfl, rfl, rfl, rfl, rfl, rfl, hm⟩

end Sys2Proof.Machine
end

section
/-! Ticks and runs (70_reset_and_hazards.md R150). A run is a chain of ticks from a Running state; it ends at the step that
sets Stopped, which is that of an instruction that stops the machine. -/

namespace Sys2Proof.Machine

/-! ## Ticks -/

/-- A step that leaves the machine Running has ticked the timer. -/
theorem ticked_of_step_running {s t : State} (h : step s = .next t) (hrunning : t.execState = .running) :
    ticked s t := by
  by_cases hstops : stopsOn s (fetchedOpcode s) (fetchedOperand s)
  · obtain ⟨hstopped, -⟩ := step_of_stopsOn h hstops
    rw [hstopped] at hrunning
    cases hrunning
  · obtain ⟨-, hticked, -⟩ := step_of_not_stopsOn h hstops
    exact hticked

/-- Settles O56, by induction on the number of ticks. -/
theorem timerAfterRunningTicks : Obligations.TimerAfterRunningTicks := by
  unfold Obligations.TimerAfterRunningTicks
  intro n
  induction n with
  | zero =>
    rintro s t - rfl
    rfl
  | succ n ih =>
    rintro s t hrunning ⟨u, htick, hu, hticks⟩
    rw [hostCommand_tick_of_running hrunning] at htick
    have hticked : u.timer.toNat = s.timer.toNat - 1 := ticked_of_step_running htick hu
    rw [ih u t hu hticks, hticked, Nat.sub_sub, Nat.add_comm]

/-! ## Runs -/

theorem runFor_of_stopped {s : State} (n : Nat) (h : s.execState = .stopped) : runFor n s = s := by
  cases n with
  | zero => rfl
  | succ n => simp only [runFor, h]

theorem afterCommand_tick {s t : State} (hrunning : s.execState = .running) (h : step s = .next t) :
    afterCommand .tick s = t := by
  simp only [afterCommand, hostCommand_tick_of_running hrunning, h]

theorem runFor_succ {s t : State} (n : Nat) (hrunning : s.execState = .running) (h : step s = .next t) :
    runFor (n + 1) s = runFor n t := by
  simp only [runFor, hrunning, afterCommand_tick hrunning h]

/-- Ticks that lead to a Running state are followed by the step from it. -/
theorem runFor_succ_of_running {n : Nat} {s u t : State} (hrun : runFor n s = u) (hu : u.execState = .running)
    (h : step u = .next t) : runFor (n + 1) s = t := by
  induction n generalizing s with
  | zero =>
    cases hrun
    exact runFor_succ 0 hu h
  | succ n ih =>
    cases hs : s.execState with
    | running =>
      obtain ⟨s', hstep⟩ := step_answers_next s
      rw [runFor_succ n hs hstep] at hrun
      rw [runFor_succ (n + 1) hs hstep, ih hrun]
    | stopped =>
      rw [runFor_of_stopped _ hs] at hrun
      rw [← hrun, hs] at hu
      cases hu

/-- Ticks from a Running state that end in a Stopped one hold a last step, which sets Stopped. -/
theorem exists_last_step {n : Nat} {s t : State} (hs : s.execState = .running) (hrun : runFor n s = t)
    (ht : t.execState = .stopped) : ∃ m u, runFor m s = u ∧ u.execState = .running ∧ step u = .next t := by
  induction n generalizing s with
  | zero =>
    cases hrun
    cases hs.symm.trans ht
  | succ n ih =>
    obtain ⟨s', hstep⟩ := step_answers_next s
    rw [runFor_succ n hs hstep] at hrun
    cases hs' : s'.execState with
    | running =>
      obtain ⟨m, u, hu, hlast⟩ := ih hs' hrun
      exact ⟨m + 1, u, (runFor_succ m hs hstep).trans hu, hlast⟩
    | stopped =>
      rw [runFor_of_stopped n hs'] at hrun
      exact ⟨0, s, rfl, hs, hrun ▸ hstep⟩

/-- Settles O57: the last step of a run sets Stopped (`exists_last_step`), so its bytes stop the machine and it keeps what
a stopping step keeps; and a Running state of a run is followed by its step (`runFor_succ_of_running`). -/
theorem runEndsAtStoppingInstruction : Obligations.RunEndsAtStoppingInstruction := by
  unfold Obligations.RunEndsAtStoppingInstruction
  intro s t
  refine ⟨?ends, fun n u hrun hu hstops h => ?reached⟩
  case ends =>
    rintro ⟨n, hrun, ht⟩
    obtain ⟨m, u, hreached, hu, hstep⟩ := exists_last_step (runCommand_execState s) hrun ht
    have hne : t.execState ≠ u.execState := by
      rw [ht, hu]
      decide
    obtain ⟨-, hstops⟩ := step_stopped_of_execState_ne hstep hne
    obtain ⟨-, hpc, htimer, hregs, hcells⟩ := step_of_stopsOn hstep hstops
    exact ⟨m, u, hreached, hu, hstops, hstep, hpc, htimer, hregs, hcells, hostCommand_tick_of_stopped ht⟩
  case reached =>
    obtain ⟨hstopped, -⟩ := step_of_stopsOn h hstops
    exact ⟨n + 1, runFor_succ_of_running hrun hu h, hstopped⟩

/-- Settles O58: run keeps counter and cells, so the step after it runs the same HALT, which answers `stopMachine`. -/
theorem runAfterHaltStopsAtOnce : Obligations.RunAfterHaltStopsAtOnce := by
  unfold Obligations.RunAfterHaltStopsAtOnce
  intro s hop hoperand
  have hcells (a : Nat) : cellByte (runCommand s) a = cellByte s a := cellByte_congr (runCommand_mem s) a
  refine ⟨stopMachine (runCommand s), ?_, rfl, rfl⟩
  rw [step_of_some ((hcells _).trans hop) ((hcells _).trans hoperand), ← exec_halt]
  exact congrArg (exec · (runCommand s)) decode_halt

end Sys2Proof.Machine
end

section
/-! What the host reads and writes (60_exceptions.md R112, 70_reset_and_hazards.md section 1 and section 3): the displayed
texts, creation, the two resets' common part, run, and the ranges of the host's writes. -/

namespace Sys2Proof.Machine

@[simp] theorem messageOf_moveForm (a : Nat) :
    messageOf .moveForm a = "opcode 0x4 must be followed by 0".toList := rfl

theorem displayEntry_logEntry (sev : Severity) (k : EntryKind) (a : Nat) :
    displayEntry (logEntry sev k a) = severityName sev ++ [':', ' '] ++ messageOf k a := rfl

/-- Settles O45: the displayed text is put together from its parts, and three of the messages are quoted. -/
theorem quotedMessagesAreFixed : Obligations.QuotedMessagesAreFixed := by
  unfold Obligations.QuotedMessagesAreFixed
  refine ⟨fun sev k a => ?_, fun a => ⟨messageOf_moveForm a, messageOf_reserved6 a, messageOf_unrecognized a, ?_, ?_, ?_⟩⟩
  · rw [displayEntry_logEntry]
    cases sev <;> rfl
  · rw [displayEntry_logEntry, messageOf_moveForm]
    rfl
  · rw [displayEntry_logEntry, messageOf_reserved6]
    rfl
  · rw [displayEntry_logEntry, messageOf_unrecognized]
    rfl

/-- Settles O46: each clause reads one field of the state at creation. -/
theorem creationState : Obligations.CreationState := by
  unfold Obligations.CreationState
  exact ⟨readReg_of_regs_zero rfl, cellText_of_mem_nil rfl, rfl, rfl, rfl, rfl, rfl⟩

/-- Settles O48: each clause reads one field that soft reset sets or keeps. -/
theorem softResetKeepsProgramAndCounter : Obligations.SoftResetKeepsProgramAndCounter := by
  unfold Obligations.SoftResetKeepsProgramAndCounter
  intro s
  exact ⟨softReset s, rfl, readReg_of_regs_zero (softReset_regs s), rfl, softReset_log s, softReset_dirty s,
    cellText_congr (softReset_mem s), softReset_pc s, softReset_execState s⟩

/-- Settles O49: each clause reads one field that run sets or keeps. -/
theorem runStartsFromCleanRegisters : Obligations.RunStartsFromCleanRegisters := by
  unfold Obligations.RunStartsFromCleanRegisters
  intro s
  exact ⟨runCommand s, rfl, readReg_of_regs_zero (runCommand_regs s), rfl, runCommand_execState s, runCommand_log s,
    runCommand_dirty s, runCommand_pc s, cellText_congr (runCommand_mem s)⟩

/-! ## The ranges of the host's writes -/

theorem hostCommand_setTimer_of_le {v : Nat} (s : State) (h : v ≤ timerHostMax) :
    hostCommand (.setTimer v) s = .next { s with timer := BitVec.ofNat 16 v } :=
  if_pos ⟨Nat.zero_le v, h⟩

theorem hostCommand_setTimer_of_gt {v : Nat} (s : State) (h : timerHostMax < v) :
    hostCommand (.setTimer v) s = .refused .timerOutOfRange :=
  if_neg fun hv => Nat.not_le.mpr h hv.2

theorem hostCommand_setCounter_of_le {v : Nat} (s : State) (h : v ≤ pcHostMax) :
    hostCommand (.setCounter v) s = .next (setPc s (BitVec.ofNat 8 v)) := if_pos h

theorem hostCommand_setCounter_of_gt {v : Nat} (s : State) (h : pcHostMax < v) :
    hostCommand (.setCounter v) s = .refused .counterOutOfRange := if_neg (Nat.not_le.mpr h)

theorem hostCommand_editCell_of_ge {a : Nat} (x : Text) (s : State) (h : memCells ≤ a) :
    hostCommand (.editCell a x) s = .refused .cellOutOfRange := if_neg (Nat.not_lt.mpr h)

/-- Settles O50, by the two sides of each bound; within it the value fits its field, so none of it is lost. -/
theorem hostWritesAreRangeChecked : Obligations.HostWritesAreRangeChecked := by
  unfold Obligations.HostWritesAreRangeChecked
  intro s v
  refine ⟨fun h => ⟨_, hostCommand_setTimer_of_le s h, ?timer, rfl⟩, hostCommand_setTimer_of_gt s,
    fun h => ⟨_, hostCommand_setCounter_of_le s h, ?counter, rfl⟩, hostCommand_setCounter_of_gt s,
    fun x h => hostCommand_editCell_of_lt x s (Nat.lt_succ_of_le h), fun x => hostCommand_editCell_of_ge x s⟩
  case timer => exact Nat.mod_eq_of_lt (Nat.lt_of_le_of_lt h (by decide))
  case counter => exact Nat.mod_eq_of_lt (Nat.lt_succ_of_le h)

end Sys2Proof.Machine
end
